-- ==== Sys2Proof/Word.lean ====
section
/-! DEFINITION. The widths of the tinyisa CORE: words, addresses and opcodes (00_scope.md R6, R7). -/
namespace Sys2Proof

/-- A 16-bit machine word or register value (R6: `WORD_BITS` = 16, `XLEN` = 16). Bit 0 is the least significant (R7). -/
abbrev Word := BitVec 16

/-- A 16-bit word address into the instruction memory (10_state.md R14, R22). -/
abbrev Addr := BitVec 16

/-- The 4-bit operation code (R6: `OPCODE_BITS` = 4). -/
abbrev Opcode := BitVec 4

/-- `trunc_16(v)` of 00_scope.md R8: the low 16 bits of an exact value. -/
abbrev trunc16 (v : Nat) : Word := BitVec.ofNat 16 v

end Sys2Proof
end

