-- ==== Sys2Proof/Config.lean ====
section
/-! DEFINITION. The implementation parameters of 00_scope.md R6. The values the spec fixes are constants. The parameters it
leaves OPEN (92_eei_decisions.md D15, D17) are types, and the functions they govern take the policy as an argument, so a
claim holds for every choice. The CORE itself has no open value. -/
namespace Sys2Proof.Config

/-- `IMEM_WORDS`: the capacity of the instruction memory in words (R6, 10_state.md R14). -/
def imemWords : Nat := 65536

/-- `HOST_PRESET`: register presets before a run are supported (R6, 92_eei_decisions.md D6). -/
def hostPreset : Bool := true

/-- `MAX_LINE`: the assembler's line bound in characters (R6, D18). -/
def maxLine : Nat := 256

/-- `MAX_TOKEN_LEN`: the assembler's token bound in characters (R6, D18). -/
def maxTokenLen : Nat := 64

/-- `MAX_TOKENS`: the assembler's token-count limit (R6, D18). -/
def maxTokens : Nat := 8

/-- `LINE_OVERFLOW_POLICY`, OPEN (30_encoding.md R68, D15): what becomes of the characters past `MAX_LINE`. -/
inductive LineOverflowPolicy where
  /-- The rest of the line is dropped. -/
  | discardRest
  /-- The rest is read as a further line. -/
  | restIsNextLine
  /-- The line is an error. -/
  | error
  deriving DecidableEq, Repr

/-- `HEX_PARSE_POLICY`, OPEN (30_encoding.md R82, D17): what the host's reader does with a line that is not a number. -/
inductive HexParsePolicy where
  /-- The line is the word 0 (the reference policy). -/
  | lenientZero
  /-- The line is a reported load error. -/
  | error
  deriving DecidableEq, Repr

/-- What the host's reader does with a hex value above 0xFFFF: D17 says the host "must refuse a value above 0xFFFF or
reduce it before LOAD", and leaves which one to the host. -/
inductive WideValuePolicy where
  /-- The value is a reported load error. -/
  | refuse
  /-- The value is reduced modulo 2^16. -/
  | reduce
  deriving DecidableEq, Repr

end Sys2Proof.Config
end

