-- ==== Sys2Proof/Syntax.lean ====
section
/-! DEFINITION. The instructions, one constructor per row of spec/opcode_table.json, and the raw field quadruple of a word
(30_encoding.md R53, R54, R61). -/
namespace Sys2Proof

/-- A register index 0 to 7, naming `x[0]` to `x[7]` (00_scope.md R6: `NREGS` = 8, `REGIDX_BITS` = 3). Every value is legal
(30_encoding.md R58). -/
abbrev RegIdx := Fin 8

/-- The six instructions (30_encoding.md R61, R77), with the operands each one uses (R59). -/
inductive Instr where
  /-- `ADD Rd, Rs1, Rs2`, opcode 5 (41_alu.md R102). -/
  | add (dr sr1 sr2 : RegIdx)
  /-- `SUB Rd, Rs1, Rs2`, opcode 1 (41_alu.md R103). -/
  | sub (dr sr1 sr2 : RegIdx)
  /-- `AND Rd, Rs1, Rs2`, opcode 4 (41_alu.md R104). -/
  | and (dr sr1 sr2 : RegIdx)
  /-- `OR Rd, Rs1, Rs2`, opcode 2 (41_alu.md R105). -/
  | or (dr sr1 sr2 : RegIdx)
  /-- `NOT Rd, Rs1`, opcode 3; the SR2 field is not an operand (41_alu.md R106). -/
  | not (dr sr1 : RegIdx)
  /-- `HALT`, opcode 15; no field is an operand (42_halt.md R111). -/
  | halt
  deriving DecidableEq, Repr

/-- The parsed form of an instruction before validation: "opcode + three register-index fields" (00_scope.md R11),
as plain numbers, so that a value out of range can be written down and refused (92_eei_decisions.md D24). -/
structure Fields where
  op  : Nat
  dr  : Nat
  sr1 : Nat
  sr2 : Nat
  deriving DecidableEq, Repr

end Sys2Proof
end

