-- ==== Sys2Proof/WellFormed.lean ====
section
/-! DEFINITION. Which field quadruples have an encoding: op in 0..15 and dr, sr1, sr2 in 0..7 (30_encoding.md R56,
92_eei_decisions.md D24), and the fields of each instruction (R59, R77). -/
namespace Sys2Proof

/-- The range check of D24: the encoder is defined on these quadruples and refuses every other. -/
def Fields.wellFormed (f : Fields) : Bool :=
  decide (f.op < 16) && decide (f.dr < 8) && decide (f.sr1 < 8) && decide (f.sr2 < 8)

/-- The Instruction `(opcode, dr, sr1, sr2)` of 30_encoding.md R77; unused fields hold 0 (R59). -/
def Instr.fields : Instr → Fields
  | .add d a b => { op := 5, dr := d, sr1 := a, sr2 := b }
  | .sub d a b => { op := 1, dr := d, sr1 := a, sr2 := b }
  | .and d a b => { op := 4, dr := d, sr1 := a, sr2 := b }
  | .or d a b  => { op := 2, dr := d, sr1 := a, sr2 := b }
  | .not d a   => { op := 3, dr := d, sr1 := a, sr2 := 0 }
  | .halt      => { op := 15, dr := 0, sr1 := 0, sr2 := 0 }

/-- An instruction is well formed when its quadruple has an encoding. A `RegIdx` is below 8 by its type, so every
instruction is (30_encoding.md R58: "There is no illegal register index"). -/
def Instr.wellFormed (i : Instr) : Bool := i.fields.wellFormed

end Sys2Proof
end

