-- ==== Sys2Proof/Decode.lean ====
section
/-! DEFINITION. The decoders of the CORE and the encoder: field extraction (30_encoding.md R54), the 4-bit opcode decoder
(R57), the 3-bit register-index decoder (R58), the word decoder (R61, R63), then encode (R56). -/
namespace Sys2Proof

/-- `op = w[15:12]` (R54). -/
def opField (w : Word) : Opcode := w.extractLsb' 12 4

/-- `dr = w[11:9]` (R54). -/
def drField (w : Word) : RegIdx := (w.extractLsb' 9 3).toFin

/-- `sr1 = w[8:6]` (R54). -/
def sr1Field (w : Word) : RegIdx := (w.extractLsb' 6 3).toFin

/-- `sr2 = w[2:0]` (R54). Bits 5..3 are not extracted (R55). -/
def sr2Field (w : Word) : RegIdx := (w.extractLsb' 0 3).toFin

/-- The defined quadruple that extraction gives for every word (R54). -/
def fieldsOf (w : Word) : Fields :=
  { op := (opField w).toNat, dr := drField w, sr1 := sr1Field w, sr2 := sr2Field w }

/-- The seven classes of the opcode decoder (R57). -/
inductive OpClass where
  | add | sub | and | or | not | halt | illegal
  deriving DecidableEq, Repr

/-- The 4-bit opcode decoder (R57): total, one class per value. -/
def opClass (op : Opcode) : OpClass :=
  if op = 5#4 then .add
  else if op = 1#4 then .sub
  else if op = 4#4 then .and
  else if op = 2#4 then .or
  else if op = 3#4 then .not
  else if op = 15#4 then .halt
  else .illegal

/-- An illegal opcode: one of 0 and 6 to 14 (R63, 00_scope.md R12). -/
def illegalOpcode (op : Opcode) : Bool := decide (opClass op = .illegal)

/-- The one-hot write select of the DR decoder: bit k is set when dr = k (R58). -/
def oneHot (dr : RegIdx) : BitVec 8 := 1#8 <<< dr.val

/-- Why a word is no instruction: its opcode is illegal, and this is the value (R63, 60_exceptions.md R118). -/
inductive DecodeReject where
  | illegalOpcode (op : Opcode)
  deriving DecidableEq, Repr

/-- Decode a word (R57, R59, R61): total on all 65536 words. Bits 5..3, SR2 of NOT and all fields of HALT are ignored
(R55, R59, R64); an illegal opcode is rejected by its value. -/
def decode (w : Word) : Except DecodeReject Instr :=
  match opClass (opField w) with
  | .add     => .ok (.add (drField w) (sr1Field w) (sr2Field w))
  | .sub     => .ok (.sub (drField w) (sr1Field w) (sr2Field w))
  | .and     => .ok (.and (drField w) (sr1Field w) (sr2Field w))
  | .or      => .ok (.or (drField w) (sr1Field w) (sr2Field w))
  | .not     => .ok (.not (drField w) (sr1Field w))
  | .halt    => .ok .halt
  | .illegal => .error (.illegalOpcode (opField w))

/-- The layout of R56 for one quadruple: `op << 12 | dr << 9 | sr1 << 6 | sr2`, bits 5..3 = 000. -/
def packFields (f : Fields) : Word :=
  (BitVec.ofNat 16 f.op <<< 12) ||| (BitVec.ofNat 16 f.dr <<< 9) ||| (BitVec.ofNat 16 f.sr1 <<< 6) ||| BitVec.ofNat 16 f.sr2

/-- `encode(op, dr, sr1, sr2)` of R56 on a raw quadruple; out-of-range fields are refused (92_eei_decisions.md D24). -/
def encodeFields (f : Fields) : Option Word :=
  if f.wellFormed then some (packFields f) else none

/-- The machine word of an instruction (R56, R77). -/
def encode (i : Instr) : Word := packFields i.fields

/-- The word a row of spec/opcode_table.json stands for: the low `nbits` bits of `w`, every bit above them 0. -/
def tableWord (nbits w : Nat) : Word := BitVec.ofNat 16 (w % 2 ^ nbits)

/-- The instruction the decoder reads from a table row's word; `none` where it rejects. An instruction is one 16-bit word
(R52), numbered in the table as in R7, so no byte order enters. -/
def decodeTableWord (nbits w : Nat) : Option Instr := (decode (tableWord nbits w)).toOption

end Sys2Proof
end

