-- ==== Sys2Proof/Machine/State.lean ====
section
/-! DEFINITION. The state of the CORE, "exactly these fields" (10_state.md R13), the reasons a step or a host request can
stop, and the state after reset (R29, 70_reset_and_hazards.md R134). -/
namespace Sys2Proof.Machine

/-- One word of instruction memory at an address. The unit is the 16-bit word: "The CORE has no bytes" (20_memory.md R46;
log entry 1). -/
abbrev Cell := Nat × Word

/-- The instruction memory as plain data in one canonical form: addresses strictly rising, no entry equal to what an
unlisted address reads as (`Memory.wf`, Machine/Ops.lean). -/
abbrev Memory := List Cell

/-- The position in the state machine (10_state.md R26). -/
inductive Phase where
  /-- After init, before running. -/
  | ready
  /-- Executing. -/
  | running
  /-- Terminal, by a HALT or by a fault. -/
  | halted
  deriving DecidableEq, Repr

/-- The complete state of the CORE (10_state.md R13). -/
structure State where
  /-- Instruction memory: 65536 words (R14). -/
  imem : Memory
  /-- The general registers R0 to R7 (R15 to R17). -/
  x : Vector Word 8
  /-- The program counter (R22). -/
  pc : Addr
  /-- True until HALT or a fault (R23). -/
  running : Bool
  /-- Ready, Running or Halted (R26). -/
  phase : Phase
  /-- The last stop was an illegal-opcode fault (R24). -/
  fault : Bool
  /-- The opcode value that faulted (R24). -/
  faultOpcode : Opcode
  /-- The address of the faulting word (R24). -/
  faultAddr : Addr
  deriving DecidableEq, Repr

/-- The ways the machine can stop WITHOUT a next state. There is none: the CORE's one exception, IllegalOpcode, is taken as
a next state with the fault latches written (60_exceptions.md R117), fetch cannot fault (20_memory.md R39) and no other
condition faults (R122). Having no constructor is safe: no step can hide an effect behind a stop (log entry 4). -/
inductive Fault where
  deriving DecidableEq, Repr

/-- Requests and instructions that are given no meaning. -/
inductive Refusal where
  /-- Raised by `exec` for an instruction without a meaning yet; no instruction of this model is left so. Safe. -/
  | notModelled (mnemonic : String)
  /-- Raised by LOAD outside phase Ready: "it is refused: the CORE's state is not changed" (20_memory.md R42). Safe. -/
  | loadNotReady
  /-- Raised by LOAD of more than 65536 words: "refused as a whole. No word is written" (20_memory.md R43). Safe. -/
  | loadTooLong
  /-- Raised by PRESET outside phase Ready: "refused and changes nothing" (70_reset_and_hazards.md R140). Safe. -/
  | presetNotReady
  deriving DecidableEq, Repr

/-- The state after reset: every field at the value of 10_state.md R29. -/
def State.reset : State where
  imem := []
  x := Vector.replicate 8 0x0000#16
  pc := 0x0000#16
  running := true
  phase := .ready
  fault := false
  faultOpcode := 0x0#4
  faultAddr := 0x0000#16

end Sys2Proof.Machine
end

