-- ==== Sys2Proof/Machine/Ops.lean ====
section
/-! DEFINITION. The named operations over the CORE's state: instruction memory (20_memory.md), fetch and pc increment
(40_sequencer.md R87, R88), stopping (42_halt.md R111), taking the IllegalOpcode exception (60_exceptions.md R117) and reset
(70_reset_and_hazards.md R134), which is the only way back from it (R121). -/
namespace Sys2Proof.Machine

/-! ## Instruction memory -/

/-- What an address that no cell lists reads as: 0x0000 (10_state.md R29, R30). -/
def Memory.unlisted : Word := 0x0000#16

/-- The canonical form: addresses strictly rising and below 65536 (10_state.md R14), no cell equal to an unlisted one. -/
abbrev Memory.wf (m : Memory) : Prop :=
  m.Pairwise (fun c d => c.1 < d.1) ∧ ∀ c ∈ m, c.1 < Config.imemWords ∧ c.2 ≠ Memory.unlisted

/-- `MemRead(addr, 1)` (00_scope.md R8, 20_memory.md R36): the whole word at an address. -/
def Memory.read : Memory → Nat → Word
  | [], _ => Memory.unlisted
  | (k, v) :: m, a => if k = a then v else Memory.read m a

/-- `MemWrite(addr, 1, v)` (00_scope.md R8): only LOAD uses it (20_memory.md R41). Keeps the canonical form. -/
def Memory.write : Memory → Nat → Word → Memory
  | [], a, w => if w = Memory.unlisted then [] else [(a, w)]
  | (k, v) :: m, a, w =>
    if a < k then
      if w = Memory.unlisted then (k, v) :: m else (a, w) :: (k, v) :: m
    else if a = k then
      if w = Memory.unlisted then m else (a, w) :: m
    else (k, v) :: Memory.write m a w

/-- The loop of 20_memory.md R41: words to ascending addresses from `a`. -/
def Memory.loadFrom (m : Memory) (a : Nat) : List Word → Memory
  | [] => m
  | w :: ws => Memory.loadFrom (Memory.write m a w) (a + 1) ws

/-! ## Fetch -/

/-- The word at the pc (20_memory.md R37). Every pc value is a valid address (R39). -/
def fetchWord (s : State) : Word := s.imem.read s.pc.toNat

/-- What the fetched word decodes to (40_sequencer.md R89). -/
def decodeFetched (s : State) : Except DecodeReject Instr := decode (fetchWord s)

/-- The start of a step (40_sequencer.md R87, R88): phase Ready becomes Running, and the pc is incremented modulo 2^16
before decode, for every word. -/
def beginStep (s : State) : State :=
  { s with phase := if s.phase = .ready then .running else s.phase, pc := s.pc + 1#16 }

/-- A STEP while `running` is false "changes no state and fetches nothing" (40_sequencer.md R95). -/
def idleStep (s : State) : State := s

/-! ## Stopping, the exception, and reset -/

/-- `running <- false; phase <- Halted` (42_halt.md R111, 60_exceptions.md R117). -/
def stop (s : State) : State := { s with running := false, phase := .halted }

/-- `raise IllegalOpcode(op, a)` (60_exceptions.md R117): the latches record the opcode and the fetch address, and the CORE
stops. The pc keeps its incremented value; no register or memory word changes. -/
def takeIllegalOpcode (op : Opcode) (a : Addr) (s : State) : State :=
  { stop s with fault := true, faultOpcode := op, faultAddr := a }

/-- RESET (70_reset_and_hazards.md R134): every field to its reset value, whatever the state. It is the only exit from a
HALT or a fault (R138); there is no return-from-exception (60_exceptions.md R121). -/
def resetState (_ : State) : State := State.reset

end Sys2Proof.Machine
end

