-- ==== Sys2Proof/Machine/Operands.lean ====
section
/-! DEFINITION. The register file: two read ports and one write port (10_state.md R18 to R21). The only operand form is a
3-bit register index (30_encoding.md R60). -/
namespace Sys2Proof.Machine

/-- `x[i]` (00_scope.md R8). No register is hard-wired or has a special role (10_state.md R16). -/
def State.reg (s : State) (i : RegIdx) : Word := s.x[i]

/-- `x[i] <- v` (00_scope.md R8). -/
def State.setReg (s : State) (i : RegIdx) (v : Word) : State := { s with x := s.x.set i v }

/-- Read port A, addressed by SR1 (10_state.md R18). Reading has no side effect. -/
def portA (s : State) (sr1 : RegIdx) : Word := s.reg sr1

/-- Read port B, addressed by SR2 (10_state.md R18). The same index on both ports gives the same value (R19). -/
def portB (s : State) (sr2 : RegIdx) : Word := s.reg sr2

/-- Write port W with its enable set: the result goes to `x[dr]` (10_state.md R18, R20). The operands were read before, so
they are the values before the step also when DR is a source (R21). -/
def portW (s : State) (dr : RegIdx) (result : Word) : State := s.setReg dr result

end Sys2Proof.Machine
end

