-- ==== Sys2Proof/Machine/Flags.lean ====
section
/-! DEFINITION. The CORE has no condition codes: no carry, borrow, overflow, zero or sign flag is computed anywhere
(10_state.md R25, 41_alu.md R100, R101). What a host sees instead is the status (R27) and the outcome of a step
(40_sequencer.md R94); both are computed here. -/
namespace Sys2Proof.Machine

/-- The host-visible status (10_state.md R27). -/
inductive Status where
  | ready | running | halted | faulted
  deriving DecidableEq, Repr

/-- The status as a function of `phase` and `fault` (10_state.md R27). -/
def State.status (s : State) : Status :=
  match s.phase with
  | .ready => .ready
  | .running => .running
  | .halted => if s.fault then .faulted else .halted

/-- The 2-bit encoding on a status port (10_state.md R27, 92_eei_decisions.md D12). -/
def Status.code : Status → BitVec 2
  | .ready => 0b00#2
  | .running => 0b01#2
  | .halted => 0b10#2
  | .faulted => 0b11#2

/-- The outcome of a step (40_sequencer.md R94). -/
inductive StepOutcome where
  /-- CONTINUE: an ALU op executed. -/
  | continued
  /-- HALTED: a HALT executed, or the CORE stood halted (R95). -/
  | halted
  /-- FAULTED: an illegal opcode, or the CORE stood faulted (R95). -/
  | faulted
  deriving DecidableEq, Repr

/-- "The host sees the outcome on the status" (40_sequencer.md R94): the outcome of the step that led to this state, and
in a halted state the standing status (R95). -/
def State.outcome (s : State) : StepOutcome :=
  match s.status with
  | .ready => .continued
  | .running => .continued
  | .halted => .halted
  | .faulted => .faulted

end Sys2Proof.Machine
end

