-- ==== Sys2Proof/Machine/Alu.lean ====
section
/-! DEFINITION. The combinational ALU (41_alu.md R100) and the meanings of ADD, SUB, AND, OR and NOT (R102 to R106). A
meaning runs after the fetch, so the pc already holds the fetch address plus 1 and no meaning touches it. -/
namespace Sys2Proof.Machine

/-- The functions of the ALU. -/
inductive AluFn where
  | add | sub | and | or | not
  deriving DecidableEq, Repr

/-- `result[15:0] = alu(class, a, b)` (R100), truncated to 16 bits for all five alike (R101). NOT takes port A only
(10_state.md R19). There is no other output: no carry, no overflow. -/
def alu : AluFn → Word → Word → Word
  | .add, a, b => a + b
  | .sub, a, b => a - b
  | .and, a, b => a &&& b
  | .or,  a, b => a ||| b
  | .not, a, _ => ~~~a

/-- An ALU op with two source registers: read both ports, compute, write `x[dr]` (10_state.md R18 to R21). -/
def aluOp (f : AluFn) (dr sr1 sr2 : RegIdx) (s : State) : Host.Outcome State Fault Refusal :=
  .next (portW s dr (alu f (portA s sr1) (portB s sr2)))

/-- ADD (R102): `x[dr] <- trunc_16(x[sr1] + x[sr2])`. -/
def execAdd (dr sr1 sr2 : RegIdx) (s : State) : Host.Outcome State Fault Refusal := aluOp .add dr sr1 sr2 s

/-- SUB (R103): `x[dr] <- trunc_16(x[sr1] - x[sr2])`. -/
def execSub (dr sr1 sr2 : RegIdx) (s : State) : Host.Outcome State Fault Refusal := aluOp .sub dr sr1 sr2 s

/-- AND (R104): `x[dr] <- x[sr1] & x[sr2]`. -/
def execAnd (dr sr1 sr2 : RegIdx) (s : State) : Host.Outcome State Fault Refusal := aluOp .and dr sr1 sr2 s

/-- OR (R105): `x[dr] <- x[sr1] | x[sr2]`. -/
def execOr (dr sr1 sr2 : RegIdx) (s : State) : Host.Outcome State Fault Refusal := aluOp .or dr sr1 sr2 s

/-- NOT (R106): `x[dr] <- ~x[sr1]`. Port B is not used; the ALU ignores its second input. -/
def execNot (dr sr1 : RegIdx) (s : State) : Host.Outcome State Fault Refusal :=
  .next (portW s dr (alu .not (portA s sr1) 0x0000#16))

end Sys2Proof.Machine
end

