-- ==== Sys2Proof/Machine/Control.lean ====
section
/-! DEFINITION. The control instruction HALT (42_halt.md). -/
namespace Sys2Proof.Machine

/-- HALT (42_halt.md R111): `running <- false; phase <- Halted`. No register, no memory word, no fault latch and no pc
changes beyond the fetch increment (R112, R115). -/
def execHalt (s : State) : Host.Outcome State Fault Refusal := .next (stop s)

end Sys2Proof.Machine
end

