-- ==== Sys2Proof/Machine/Dispatch.lean ====
section
/-! DEFINITION. Execute dispatches on the opcode class alone (40_sequencer.md R90): one arm per instruction. -/
namespace Sys2Proof.Machine

def exec (i : Instr) (s : State) : Host.Outcome State Fault Refusal :=
  match i with
  | .add dr sr1 sr2 => Sys2Proof.Machine.execAdd dr sr1 sr2 s
  | .sub dr sr1 sr2 => Sys2Proof.Machine.execSub dr sr1 sr2 s
  | .and dr sr1 sr2 => Sys2Proof.Machine.execAnd dr sr1 sr2 s
  | .or dr sr1 sr2 => Sys2Proof.Machine.execOr dr sr1 sr2 s
  | .not dr sr1 => Sys2Proof.Machine.execNot dr sr1 s
  | .halt => Sys2Proof.Machine.execHalt s

end Sys2Proof.Machine
end

