-- ==== Sys2Proof/Machine/Step.lean ====
section
/-! DEFINITION. The step: the atomic fetch, decode and execute of one word (40_sequencer.md R86 to R91). -/
namespace Sys2Proof.Machine

/-- One STEP (40_sequencer.md R91). It is taken while `running` is true (R87); otherwise nothing changes (R95). An illegal
opcode takes the IllegalOpcode exception with the address the word was fetched from (60_exceptions.md R117). -/
def step (s : State) : Host.Outcome State Fault Refusal :=
  if s.running then
    match decodeFetched s with
    | .ok i => exec i (beginStep s)
    | .error (.illegalOpcode op) => .next (takeIllegalOpcode op s.pc (beginStep s))
  else
    .next (idleStep s)

/-- `s` with a table row's word stored where `step` fetches its next instruction, and `running` set, without which `step`
fetches nothing (R95). In every state that is not stopped this is `s` with one word of `imem` changed (log entry 5). -/
def State.withFetchWord (s : State) (nbits w : Nat) : State :=
  { s with imem := s.imem.write s.pc.toNat (tableWord nbits w), running := true }

end Sys2Proof.Machine
end

