-- ==== Sys2Proof/Machine/Datapath.lean ====
section
/-! DEFINITION. The step as the sub-blocks of 00_scope.md R2 perform it: the opcode decoder's class drives the write-port
enable, the ALU function and the sequencer (30_encoding.md R57); both read ports read every word (10_state.md R19); the DR
decoder's one-hot select, gated by the enable, picks the register to write (R20, R58). It is a second description of `step`,
given so that the two can be proved equal; the CORE's meaning is `step`. -/
namespace Sys2Proof.Machine

/-- The write-port enable: set exactly for the five ALU ops (10_state.md R20). -/
def writeEnable : OpClass → Bool
  | .add | .sub | .and | .or | .not => true
  | .halt | .illegal => false

/-- The ALU function the class selects (41_alu.md R100). For HALT and ILLEGAL the result is not used. -/
def aluSelect : OpClass → AluFn
  | .add => .add
  | .sub => .sub
  | .and => .and
  | .or => .or
  | .not => .not
  | .halt => .add
  | .illegal => .add

/-- Write port W by a one-hot select: register k takes the result when bit k is set (30_encoding.md R58). -/
def writeSelected (sel : BitVec 8) (result : Word) (x : Vector Word 8) : Vector Word 8 :=
  Vector.ofFn fun k => if sel.getLsbD k.val then result else x[k]

/-- One step of the datapath. -/
def datapathStep (s : State) : State :=
  let w := fetchWord s
  let cls := opClass (opField w)
  let result := alu (aluSelect cls) (portA s (sr1Field w)) (portB s (sr2Field w))
  let sel := if writeEnable cls then oneHot (drField w) else 0#8
  let stopping := decide (cls = .halt) || decide (cls = .illegal)
  let faulting := decide (cls = .illegal)
  if s.running then
    { imem := s.imem
      x := writeSelected sel result s.x
      pc := s.pc + 1#16
      running := !stopping
      phase := if stopping then .halted else if s.phase = .ready then .running else s.phase
      fault := s.fault || faulting
      faultOpcode := if faulting then opField w else s.faultOpcode
      faultAddr := if faulting then s.pc else s.faultAddr }
  else s

end Sys2Proof.Machine
end

