-- ==== Sys2Proof/Machine/Assembler.lean ====
section
/-! DEFINITION. The assembler: source text to machine words (30_encoding.md R67 to R79, R83). These rules constrain the
toolchain that makes words for LOAD, not the CORE (00_scope.md R4). Text is a list of characters. -/
namespace Sys2Proof.Machine

abbrev Text := List Char

/-- The whitespace classification of R70. PRESUMED: the six characters are the spec's own general knowledge
(93_implementation_defined.md G1; log entry 13). -/
def isWhitespace (c : Char) : Bool :=
  c = ' ' || c = '\t' || c = '\n' || c = Char.ofNat 0x0B || c = Char.ofNat 0x0C || c = '\r'

/-- The delimiters of R71: whitespace and the comma, as one set. -/
def isDelim (c : Char) : Bool := isWhitespace c || c = ','

/-- The causes of a SyntaxError (R79), and the over-long line of the policy `error` (D15; log entry 12). -/
inductive ErrorCause where
  | unknownMnemonic
  | wrongOperandCount
  | badRegister
  | lineTooLong
  deriving DecidableEq, Repr

/-- A SyntaxError: the 1-based physical line number, the cause and the offending token (R73, R78, D14). Its text is the
host's (D22). -/
structure SyntaxError where
  line : Nat
  cause : ErrorCause
  token : Text
  deriving DecidableEq, Repr

/-! ## Steps 1 to 4: bound, strip, trim, tokenize -/

/-- Put a character in front of the first line. -/
def consFirst (c : Char) : List Text → List Text
  | [] => [[c]]
  | l :: ls => (c :: l) :: ls

/-- A line cut into pieces of at most `max` characters; `room` is what is left of the present piece. -/
def pieces (max : Nat) : Nat → Text → List Text
  | _, [] => [[]]
  | 0, c :: cs => [] :: consFirst c (pieces max (max - 1) cs)
  | room + 1, c :: cs => consFirst c (pieces max room cs)

/-- Step 1 (R68): a line bounded to `MAX_LINE` characters, under the OPEN policy; `none` is the policy's error. The bound
counts the characters of the line without the newline that ends it (DESIGN CHOICE, log entry 10; what ends a line: log
entry 19). -/
def boundLine (p : Config.LineOverflowPolicy) (line : Text) : Option (List Text) :=
  if line.length ≤ Config.maxLine then some [line]
  else match p with
    | .discardRest => some [line.take Config.maxLine]
    | .restIsNextLine => some (pieces Config.maxLine Config.maxLine line)
    | .error => none

/-- Step 2 (R69): everything from the first `;` is removed. -/
def stripComment (t : Text) : Text := t.takeWhile (· ≠ ';')

/-- Step 3 (R70): leading and trailing whitespace is removed. -/
def trim (t : Text) : Text := ((t.dropWhile isWhitespace).reverse.dropWhile isWhitespace).reverse

/-- The text split on runs of delimiters, with no empty token (R71, D16) and no bound. -/
def splitTokens (t : Text) : List Text := (t.splitOnP isDelim).filter (fun tok => !tok.isEmpty)

/-- The bounds of R71: at most `MAX_TOKENS` tokens, each cut to `MAX_TOKEN_LEN` characters. -/
def boundTokens (ts : List Text) : List Text := (ts.take Config.maxTokens).map (·.take Config.maxTokenLen)

/-- Step 4 (R71). -/
def tokenize (t : Text) : List Text := boundTokens (splitTokens t)

/-! ## Steps 5 to 8: mnemonic, arity, registers -/

/-- The six mnemonics (R73). -/
inductive Mnemonic where
  | add | sub | and | or | not | halt
  deriving DecidableEq, Repr

/-- The spelling of a mnemonic (R73). -/
def Mnemonic.text : Mnemonic → Text
  | .add => ['A', 'D', 'D']
  | .sub => ['S', 'U', 'B']
  | .and => ['A', 'N', 'D']
  | .or => ['O', 'R']
  | .not => ['N', 'O', 'T']
  | .halt => ['H', 'A', 'L', 'T']

/-- Step 6 (R73): case-sensitive exact match, no aliases. -/
def parseMnemonic (t : Text) : Option Mnemonic :=
  if t = Mnemonic.text .add then some .add
  else if t = Mnemonic.text .sub then some .sub
  else if t = Mnemonic.text .and then some .and
  else if t = Mnemonic.text .or then some .or
  else if t = Mnemonic.text .not then some .not
  else if t = Mnemonic.text .halt then some .halt
  else none

/-- The digit that names a register: `0` to `7` (R75, R77). -/
def regDigit (r : RegIdx) : Char := Char.ofNat (48 + r.val)

/-- "The register index is that digit's value" (R75): the register a digit names, if it names one. -/
def parseDigit (c : Char) : Option RegIdx := (List.finRange 8).find? fun r => regDigit r == c

/-- Step 8 (R75): exactly `[rR][0-7]`. -/
def parseReg : Text → Option RegIdx
  | [p, d] => if p = 'r' || p = 'R' then parseDigit d else none
  | _ => none

/-- A register operand, or the error that names its token. -/
def regOperand (t : Text) : Except (ErrorCause × Text) RegIdx :=
  match parseReg t with
  | some r => .ok r
  | none => .error (.badRegister, t)

/-- Three register operands in the order DR, SR1, SR2 (R74). -/
def threeRegs (mk : RegIdx → RegIdx → RegIdx → Instr) (a b c : Text) : Except (ErrorCause × Text) (Option Instr) :=
  match regOperand a, regOperand b, regOperand c with
  | .ok d, .ok s1, .ok s2 => .ok (some (mk d s1 s2))
  | .error e, _, _ => .error e
  | .ok _, .error e, _ => .error e
  | .ok _, .ok _, .error e => .error e

/-- Two register operands in the order DR, SR1 (R74). -/
def twoRegs (mk : RegIdx → RegIdx → Instr) (a b : Text) : Except (ErrorCause × Text) (Option Instr) :=
  match regOperand a, regOperand b with
  | .ok d, .ok s1 => .ok (some (mk d s1))
  | .error e, _ => .error e
  | .ok _, .error e => .error e

/-- Step 7 (R74): the operand count must match the mnemonic exactly; then step 8 reads the registers. An arity error names
the mnemonic's token (log entry 16). DEDUCED (log entry 18): NOT has two operands, by R74, R77 and R84; the last line of R83's
grammar writes one, against its own comment "k as rule R74 gives", and is read as a slip. -/
def parseOperands (name : Text) : Mnemonic → List Text → Except (ErrorCause × Text) (Option Instr)
  | .add, [a, b, c] => threeRegs .add a b c
  | .sub, [a, b, c] => threeRegs .sub a b c
  | .and, [a, b, c] => threeRegs .and a b c
  | .or, [a, b, c] => threeRegs .or a b c
  | .not, [a, b] => twoRegs .not a b
  | .halt, [] => .ok (some .halt)
  | _, _ => .error (.wrongOperandCount, name)

/-- Steps 5 to 8 on a line's tokens: `none` is a skip (R72), else an instruction or a parse error. -/
def parseTokens : List Text → Except (ErrorCause × Text) (Option Instr)
  | [] => .ok none
  | name :: operands =>
    match parseMnemonic name with
    | none => .error (.unknownMnemonic, name)
    | some m => parseOperands name m operands

/-- One bounded line (R67): skip, an instruction, or a parse error. -/
def parseLine (line : Text) : Except (ErrorCause × Text) (Option Instr) :=
  parseTokens (tokenize (trim (stripComment line)))

/-! ## The whole source -/

/-- The words of the pieces of one physical line, all under its line number (R78, D14; log entry 11). -/
def assemblePieces (n : Nat) : List Text → Except SyntaxError (List Word)
  | [] => .ok []
  | piece :: rest =>
    match parseLine piece with
    | .error (cause, token) => .error { line := n, cause := cause, token := token }
    | .ok i =>
      match assemblePieces n rest with
      | .error e => .error e
      | .ok ws => .ok ((i.map encode).toList ++ ws)

/-- The words of one physical line. -/
def assembleLine (p : Config.LineOverflowPolicy) (n : Nat) (line : Text) : Except SyntaxError (List Word) :=
  match boundLine p line with
  | none => .error { line := n, cause := .lineTooLong, token := [] }
  | some ps => assemblePieces n ps

/-- The lines from line `n` on. Fail-fast: the first error in line order aborts, with no output (R78, R85). -/
def assembleFrom (p : Config.LineOverflowPolicy) (n : Nat) : List Text → Except SyntaxError (List Word)
  | [] => .ok []
  | line :: lines =>
    match assembleLine p n line with
    | .error e => .error e
    | .ok ws =>
      match assembleFrom p (n + 1) lines with
      | .error e => .error e
      | .ok rest => .ok (ws ++ rest)

/-- The assembler on the lines of a source file, numbered from 1 (R78). -/
def assemble (p : Config.LineOverflowPolicy) (lines : List Text) : Except SyntaxError (List Word) :=
  assembleFrom p 1 lines

/-! ## The assembly form of an instruction (R77) -/

/-- `R0` to `R7`. -/
def regText (r : RegIdx) : Text := ['R', regDigit r]

/-- The tokens of an instruction's assembly form. -/
def instrTokens : Instr → List Text
  | .add d a b => [Mnemonic.text .add, regText d, regText a, regText b]
  | .sub d a b => [Mnemonic.text .sub, regText d, regText a, regText b]
  | .and d a b => [Mnemonic.text .and, regText d, regText a, regText b]
  | .or d a b => [Mnemonic.text .or, regText d, regText a, regText b]
  | .not d a => [Mnemonic.text .not, regText d, regText a]
  | .halt => [Mnemonic.text .halt]

/-- The operands after the mnemonic, separated by `, `. -/
def joinOperands : List Text → Text
  | [] => []
  | [t] => t
  | t :: ts => t ++ [',', ' '] ++ joinOperands ts

/-- An instruction as R77 writes it: `ADD R1, R2, R3`. -/
def instrText (i : Instr) : Text :=
  match instrTokens i with
  | [] => []
  | [name] => name
  | name :: operands => name ++ [' '] ++ joinOperands operands

end Sys2Proof.Machine
end

