-- ==== Sys2Proof/Machine/Requests.lean ====
section
/-! DEFINITION. The host's interactions (10_state.md R28, 70_reset_and_hazards.md R134 to R147), each atomic with respect to
steps. A refused request changes nothing (R42, R43, R140). RUN is STEP held asserted until the status is HALTED or FAULTED
(R28); it is in Machine/Run.lean. -/
namespace Sys2Proof.Machine

/-- What READOUT returns (70_reset_and_hazards.md R143). -/
structure Readout where
  x : Vector Word 8
  pc : Addr
  status : Status
  faultOpcode : Opcode
  faultAddr : Addr
  deriving DecidableEq, Repr

/-- A request of the host. -/
inductive Request where
  | reset
  | load (words : List Word)
  | preset (i : RegIdx) (v : Word)
  | step
  | readout
  deriving DecidableEq, Repr

/-- What the host gets back. -/
inductive Answer where
  /-- Accepted; nothing to return. -/
  | done
  /-- STEP's outcome (40_sequencer.md R94, R95). -/
  | stepped (outcome : StepOutcome)
  /-- READOUT's values. -/
  | values (r : Readout)
  /-- Not accepted, with the reason; the state is unchanged. -/
  | refused (r : Refusal)
  deriving DecidableEq, Repr

/-- LOAD (70_reset_and_hazards.md R139): words from address 0, then `pc <- 0`; nothing else changes (20_memory.md R44). -/
def loadWords (words : List Word) (s : State) : Host.Outcome State Fault Refusal :=
  if s.phase ≠ .ready then .refused .loadNotReady
  else if words.length > Config.imemWords then .refused .loadTooLong
  else .next { s with imem := s.imem.loadFrom 0 words, pc := 0x0000#16 }

/-- PRESET (70_reset_and_hazards.md R140): `x[i] <- v` in phase Ready. -/
def presetReg (i : RegIdx) (v : Word) (s : State) : Host.Outcome State Fault Refusal :=
  if Config.hostPreset && decide (s.phase = .ready) then .next (s.setReg i v) else .refused .presetNotReady

/-- READOUT (70_reset_and_hazards.md R143). -/
def State.readout (s : State) : Readout :=
  { x := s.x, pc := s.pc, status := s.status, faultOpcode := s.faultOpcode, faultAddr := s.faultAddr }

/-- The state after an accepted request, with the answer made from it; a refusal leaves the state `s` as it was. -/
def settle (s : State) (answer : State → Answer) : Host.Outcome State Fault Refusal → State × Answer
  | .next t => (t, answer t)
  | .fault r => nomatch r
  | .refused r => (s, .refused r)

/-- One interaction. -/
def handle : Request → State → State × Answer
  | .reset, s => (resetState s, .done)
  | .load words, s => settle s (fun _ => .done) (loadWords words s)
  | .preset i v, s => settle s (fun _ => .done) (presetReg i v s)
  | .step, s => settle s (fun t => .stepped t.outcome) (Sys2Proof.Machine.step s)
  | .readout, s => (s, .values s.readout)

/-- The state after a sequence of interactions. -/
def handleAll : List Request → State → State
  | [], s => s
  | q :: qs, s => handleAll qs (handle q s).1

/-- The boot order of 70_reset_and_hazards.md R147 up to the first step: RESET, LOAD, then any PRESETs. -/
def bootRequests (words : List Word) (presets : List (RegIdx × Word)) : List Request :=
  .reset :: .load words :: presets.map (fun p => .preset p.1 p.2)

/-- The state in which a program's first step starts (R147). -/
def boot (words : List Word) (presets : List (RegIdx × Word)) (s : State) : State :=
  handleAll (bootRequests words presets) s

end Sys2Proof.Machine
end

