-- ==== Sys2Proof/Machine/HexText.lean ====
section
/-! DEFINITION. The text formats around the CORE: the assembler's output (30_encoding.md R80), the host's hex reader (R82)
and the conventional rendering of the registers (70_reset_and_hazards.md R143). Host and toolchain side. -/
namespace Sys2Proof.Machine

/-- A hexadecimal digit, upper case. -/
def hexDigit (n : Nat) : Char := if n < 10 then Char.ofNat (48 + n) else Char.ofNat (55 + n)

/-- `%04X`: four upper-case hex digits, most significant first (R80, 20_memory.md R47). -/
def hex4 (w : Word) : Text :=
  [hexDigit (w.toNat / 4096), hexDigit (w.toNat / 256 % 16), hexDigit (w.toNat / 16 % 16), hexDigit (w.toNat % 16)]

/-- The canonical output: one word a line, each line ended by a newline (R80). -/
def emit (ws : List Word) : Text := ws.flatMap (fun w => hex4 w ++ ['\n'])

/-- The physical lines of a source text (R78) or a hex text (R82). The spec does not say what ends a line. DESIGN CHOICE (log
entry 19): the newline alone does, it belongs to no line, and a final newline opens no further line. A carriage return stays
in its line and counts toward `MAX_LINE`. -/
def textLines : Text → List Text
  | [] => []
  | c :: cs => if c = '\n' then [] :: textLines cs else consFirst c (textLines cs)

/-- The value of a hex digit of either case: the one whose written digit it is (log entry 14). -/
def hexValue (c : Char) : Option Nat := (List.range 16).find? fun n => hexDigit n == c.toUpper

/-- The digits of a number, most significant first, after the value `acc`. -/
def parseHexFrom (acc : Nat) : Text → Option Nat
  | [] => some acc
  | c :: cs =>
    match hexValue c with
    | none => none
    | some d => parseHexFrom (acc * 16 + d) cs

/-- A line that parses numerically: one or more hex digits, with whitespace around them ignored (DESIGN CHOICE: R82 gives
no syntax; log entry 14). -/
def parseHexLine (line : Text) : Option Nat :=
  match trim line with
  | [] => none
  | digits => parseHexFrom 0 digits

/-- One line of the host's reader (R82) under the OPEN policies; `none` is a reported load error. -/
def readHexLine (p : Config.HexParsePolicy) (wide : Config.WideValuePolicy) (line : Text) : Option Word :=
  match parseHexLine line with
  | some v =>
    if v < 65536 then some (BitVec.ofNat 16 v)
    else match wide with
      | .refuse => none
      | .reduce => some (BitVec.ofNat 16 v)
  | none =>
    match p with
    | .lenientZero => some 0x0000#16
    | .error => none

/-- LOAD's word sequence from the hex lines, in order (R82). -/
def readHex (p : Config.HexParsePolicy) (wide : Config.WideValuePolicy) (lines : List Text) : Option (List Word) :=
  lines.mapM (readHexLine p wide)

/-- `R<i>: 0x<4-hex-digit>` (R143). The digits' case is the model's choice (log entry 15). -/
def renderReg (x : Vector Word 8) (i : RegIdx) : Text := regText i ++ [':', ' ', '0', 'x'] ++ hex4 x[i]

/-- The rendering of all eight registers, in order. -/
def renderRegs (r : Readout) : List Text := (List.finRange 8).map (renderReg r.x)

end Sys2Proof.Machine
end

