-- ==== Sys2Proof/Machine/Run.lean ====
section
/-! DEFINITION. Runs made of steps, and the run loop RUN (40_sequencer.md R96 to R98). A run over memory without a stopping
word never ends (R97), so RUN is not one transition: it is given under fuel, where running out of fuel is no end of run
(92_eei_decisions.md D19), and as the relations `EndsIn` and `NeverEnds` (log entry 8). -/
namespace Sys2Proof.Machine

/-- `k` STEPs in a row. -/
def stepN : Nat → State → Host.Outcome State Fault Refusal
  | 0, s => .next s
  | k + 1, s =>
    match step s with
    | .next t => stepN k t
    | .fault r => .fault r
    | .refused r => .refused r

/-- What a RUN under fuel has come to. -/
inductive RunEnd where
  /-- The phase is Halted: the run ended with this outcome, HALTED or FAULTED, in this state (R98). -/
  | ended (outcome : StepOutcome) (s : State)
  /-- The fuel ran out; the run has NOT ended. -/
  | outOfFuel (s : State)
  deriving DecidableEq, Repr

/-- `while s.phase != Halted: s <- STEP(s)` (R96), for at most `fuel` steps. In phase Halted no step is taken and the
standing status is returned. -/
def runFuel : Nat → State → Host.Outcome RunEnd Fault Refusal
  | fuel, s =>
    if s.phase = .halted then .next (.ended s.outcome s)
    else match fuel with
      | 0 => .next (.outOfFuel s)
      | fuel + 1 =>
        match step s with
        | .next t => runFuel fuel t
        | .fault r => .fault r
        | .refused r => .refused r

/-- A RUN from `s` ends after exactly `k` steps in `t`: phase Halted there, and not at any earlier point (R98). -/
def EndsIn (s : State) (k : Nat) (t : State) : Prop :=
  stepN k s = .next t ∧ t.phase = .halted ∧ ∀ j < k, ∃ u, stepN j s = .next u ∧ u.phase ≠ .halted

/-- A RUN from `s` does not return (R97). -/
def NeverEnds (s : State) : Prop := ∀ k, ∃ t, stepN k s = .next t ∧ t.phase ≠ .halted

end Sys2Proof.Machine
end

