-- ==== Sys2Proof/Machine/Flow.lean ====
section
/-! DEFINITION. The whole-system flow of 70_reset_and_hazards.md R146: assemble, write and read the hex text, load, run,
read the registers. The open policies are arguments. -/
namespace Sys2Proof.Machine

/-- How a flow can end before a run. -/
inductive FlowError where
  /-- The assembly failed; there is no output (30_encoding.md R85). -/
  | assembly (e : SyntaxError)
  /-- The hex text was refused by the reader's policy (30_encoding.md R82), or LOAD refused the words (20_memory.md R43). -/
  | load
  deriving DecidableEq, Repr

/-- The word stream of a source file, through the assembler's text output and the host's reader. -/
def sourceWords (line : Config.LineOverflowPolicy) (hex : Config.HexParsePolicy) (wide : Config.WideValuePolicy)
    (source : Text) : Except FlowError (List Word) :=
  match assemble line (textLines source) with
  | .error e => .error (.assembly e)
  | .ok ws =>
    match readHex hex wide (textLines (emit ws)) with
    | none => .error .load
    | some words => .ok words

/-- Assemble, boot and run under fuel; the end state is read by `State.readout` (R143). -/
def runSource (line : Config.LineOverflowPolicy) (hex : Config.HexParsePolicy) (wide : Config.WideValuePolicy)
    (source : Text) (presets : List (RegIdx × Word)) (fuel : Nat) :
    Except FlowError (Host.Outcome RunEnd Fault Refusal) :=
  match sourceWords line hex wide source with
  | .error e => .error e
  | .ok words =>
    if words.length > Config.imemWords then .error .load
    else .ok (runFuel fuel (boot words presets State.reset))

end Sys2Proof.Machine
end

