-- ==== Sys2Proof/Safety.lean ====
section
/-! DEFINITION. What the statements take for granted and what a safe run is: the invariant of every state a host can reach,
and the ends of a run told apart (40_sequencer.md R98, 70_reset_and_hazards.md R149). -/
namespace Sys2Proof.Machine

/-- The word at an address of the state's instruction memory. -/
def State.wordAt (s : State) (a : Addr) : Word := s.imem.read a.toNat

/-- A state from which a step executes a word: `running` is true and the phase is Ready or Running (40_sequencer.md R87). -/
structure State.Live (s : State) : Prop where
  running : s.running = true
  phase : s.phase ≠ .halted

/-- The invariant of every reachable state. -/
structure State.Inv (s : State) : Prop where
  /-- The memory is in its canonical form (log entry 1). -/
  memory : s.imem.wf
  /-- `running` is true in Ready and Running, and false in Halted (10_state.md R23). -/
  running_iff : s.running = true ↔ s.phase ≠ .halted
  /-- Before the first step the pc is 0 (70_reset_and_hazards.md R135). -/
  ready_pc : s.phase = .ready → s.pc = 0x0000#16
  /-- A latched fault means a halted core (60_exceptions.md R117). -/
  fault_halted : s.fault = true → s.phase = .halted
  /-- Only a fault writes the latches (10_state.md R24). -/
  latches_clear : s.fault = false → s.faultOpcode = 0x0#4 ∧ s.faultAddr = 0x0000#16
  /-- A latched fault names an illegal opcode, the address just before the pc, and the word there (60_exceptions.md R118). -/
  fault_report : s.fault = true →
    illegalOpcode s.faultOpcode = true ∧ s.pc = s.faultAddr + 1#16 ∧ opField (s.wordAt s.faultAddr) = s.faultOpcode
  /-- A normal stop was made by a HALT at the address just before the pc (42_halt.md R112). -/
  halt_report : s.phase = .halted → s.fault = false → opClass (opField (s.wordAt (s.pc - 1#16))) = .halt

/-- A safe state: no fault is latched. A FAULTED end "is never the normal end of a claim" (70_reset_and_hazards.md R149). -/
def State.Safe (s : State) : Prop := s.status ≠ .faulted

/-- A run ends normally: in status HALTED (40_sequencer.md R98, 42_halt.md R114). -/
def EndsNormally (s : State) : Prop := ∃ k t, EndsIn s k t ∧ t.status = .halted

end Sys2Proof.Machine
end

