-- ==== Sys2Proof/Certificates/Slice0/Obligations.lean ====
section
/-! DEFINITION. The statements about the CORE for the provers. Numbers are read from words and registers as exact naturals
(`w.toNat / 512 % 8` is bits 11..9), so that a statement does not repeat the model's own bit operations. -/
namespace Sys2Proof.Claims
open Sys2Proof.Machine

/-- Bits 15..12 of a word as a number. -/
abbrev opOf (w : Word) : Nat := w.toNat / 4096

/-- Bits 11..9 of a word as a register index. -/
def drOf (w : Word) : RegIdx := Fin.ofNat 8 (w.toNat / 512)

/-- Bits 8..6 of a word as a register index. -/
def sr1Of (w : Word) : RegIdx := Fin.ofNat 8 (w.toNat / 64)

/-- Bits 2..0 of a word as a register index. -/
def sr2Of (w : Word) : RegIdx := Fin.ofNat 8 w.toNat

/-- The opcode is one of the five ALU ops, 1 to 5 (00_scope.md R12). -/
abbrev AluWord (w : Word) : Prop := 1 ≤ opOf w ∧ opOf w ≤ 5

/-- The opcode is one of 0 and 6 to 14 (30_encoding.md R63). -/
abbrev IllegalWord (w : Word) : Prop := opOf w = 0 ∨ (6 ≤ opOf w ∧ opOf w ≤ 14)

/-- The exact result of an ALU op with this opcode on the values of its two ports, before it is narrowed to 16 bits
(41_alu.md R102 to R106). It is read only for the opcodes 1 to 5. -/
def exactResult (op a b : Nat) : Nat :=
  if op = 5 then a + b
  else if op = 1 then a + 65536 - b
  else if op = 4 then a &&& b
  else if op = 2 then a ||| b
  else 65535 - a

/-- The value the word `w` computes when register `r` holds `x r`. -/
def wordResult (w : Word) (x : RegIdx → Word) : Word :=
  BitVec.ofNat 16 (exactResult (opOf w) (x (sr1Of w)).toNat (x (sr2Of w)).toNat)

/-- The registers after an ALU word: DR holds the result, every other register is as before. -/
def regsAfter (w : Word) (x : RegIdx → Word) (r : RegIdx) : Word := if r = drOf w then wordResult w x else x r

/-- From `s` to `t` nothing changes but, at most, the registers in `written`: not the other registers, not the pc, not
`running` or `phase`, not a fault latch, and no word of memory. -/
structure OnlyWrites (written : List RegIdx) (s t : State) : Prop where
  regs : ∀ r, r ∉ written → t.reg r = s.reg r
  pc : t.pc = s.pc
  running : t.running = s.running
  phase : t.phase = s.phase
  fault : t.fault = s.fault
  faultOpcode : t.faultOpcode = s.faultOpcode
  faultAddr : t.faultAddr = s.faultAddr
  memory : ∀ a : Nat, t.imem.read a = s.imem.read a

/-- `i` completes from `s` with the value `v` in register `d`, and changes nothing else. -/
def Writes (i : Instr) (s : State) (d : RegIdx) (v : Word) : Prop :=
  ∃ t, exec i s = .next t ∧ t.reg d = v ∧ OnlyWrites [d] s t

/-- The words and the assembly tokens of an instruction with three register operands (30_encoding.md R61, R77): every word
with this opcode is the instruction with the operands of its fields, whatever bits 5..3 hold; its encoding; its tokens. -/
def ThreeOperandForm (op : Nat) (name : Text) (mk : RegIdx → RegIdx → RegIdx → Instr) : Prop :=
  (∀ w : Word, w &&& 0xF000#16 = BitVec.ofNat 16 (op * 4096) → decode w = .ok (mk (drOf w) (sr1Of w) (sr2Of w))) ∧
  (∀ d a b : RegIdx, encode (mk d a b) = BitVec.ofNat 16 (op * 4096 + d.val * 512 + a.val * 64 + b.val)) ∧
  (∀ d a b : RegIdx, parseTokens [name, regText d, regText a, regText b] = .ok (some (mk d a b)))

end Sys2Proof.Claims

open Sys2Proof Sys2Proof.Machine Sys2Proof.Claims

/-! ## Decoding and encoding (30_encoding.md) -/

/-- R54: extraction gives the four fields of every word, as numbers. -/
def Obligations.FieldsOfEveryWord : Prop :=
  ∀ w : Word, fieldsOf w =
    { op := w.toNat / 4096, dr := w.toNat / 512 % 8, sr1 := w.toNat / 64 % 8, sr2 := w.toNat % 8 }

/-- R61: the complete opcode map, over all 65536 words, with the operands each class takes from its fields. -/
def Obligations.OpcodeMapIsComplete : Prop :=
  ∀ w : Word,
    (opOf w = 1 → decode w = .ok (.sub (drOf w) (sr1Of w) (sr2Of w))) ∧
    (opOf w = 2 → decode w = .ok (.or (drOf w) (sr1Of w) (sr2Of w))) ∧
    (opOf w = 3 → decode w = .ok (.not (drOf w) (sr1Of w))) ∧
    (opOf w = 4 → decode w = .ok (.and (drOf w) (sr1Of w) (sr2Of w))) ∧
    (opOf w = 5 → decode w = .ok (.add (drOf w) (sr1Of w) (sr2Of w))) ∧
    (opOf w = 15 → decode w = .ok .halt) ∧
    (IllegalWord w → decode w = .error (.illegalOpcode (BitVec.ofNat 4 (opOf w))))

/-- R56: encode puts the four fields in their places, with bits 5..3 = 000, and is the inverse of extraction for fields in
range. -/
def Obligations.EncodeInvertsExtraction : Prop :=
  ∀ op dr sr1 sr2 : Nat, op < 16 → dr < 8 → sr1 < 8 → sr2 < 8 →
    ∃ w : Word, encodeFields { op := op, dr := dr, sr1 := sr1, sr2 := sr2 } = some w ∧
      w.toNat = op * 4096 + dr * 512 + sr1 * 64 + sr2 ∧
      fieldsOf w = { op := op, dr := dr, sr1 := sr1, sr2 := sr2 }

/-- 92_eei_decisions.md D24, the spec's own choice: encode refuses exactly the quadruples that are out of range. -/
def Obligations.EncodeRefusesOutOfRange : Prop :=
  ∀ f : Fields, encodeFields f = none ↔ (16 ≤ f.op ∨ 8 ≤ f.dr ∨ 8 ≤ f.sr1 ∨ 8 ≤ f.sr2)

/-- 30_encoding.md section 4 (the first sentence of R66): every instruction is well formed, and decoding its word gives it
back with every operand. -/
def Obligations.DecodeOfEncodeIsIdentity : Prop :=
  ∀ i : Instr, i.wellFormed = true ∧ decode (encode i) = .ok i

/-- 30_encoding.md section 4 (the last sentence of R66): extraction then encode is the identity exactly on the words whose
bits 5..3 are zero. -/
def Obligations.ReencodingFixesCanonicalWords : Prop :=
  ∀ w : Word, encodeFields (fieldsOf w) = some w ↔ w.toNat / 8 % 8 = 0

/-- 30_encoding.md R55, R59 and R64: a word executes as the word with bits 5..3 cleared; a NOT as the one with its SR2 field
cleared too; a HALT as 0xF000. The two steps differ in nothing but the word that stands in memory. -/
def Obligations.IgnoredBitsHaveNoEffect : Prop :=
  ∀ (s : State) (w c : Word), s.running = true → s.imem.wf →
    (c = w &&& 0xFFC7#16 ∨ (opOf w = 3 ∧ c = w &&& 0xFFC0#16) ∨ (opOf w = 15 ∧ c = 0xF000#16)) →
    ∃ t, step { s with imem := s.imem.write s.pc.toNat w } = .next t ∧
      step { s with imem := s.imem.write s.pc.toNat c } = .next { t with imem := s.imem.write s.pc.toNat c }

/-- Words written out from the layout of R53 and the opcodes of R61, at least one for each instruction, and what they are. -/
def Obligations.WrittenWordsDecode : Prop :=
  decode 0b0101_001_010_000_011#16 = .ok (.add 1 2 3) ∧
  decode 0b0001_111_110_000_101#16 = .ok (.sub 7 6 5) ∧
  decode 0b0100_101_110_000_010#16 = .ok (.and 5 6 2) ∧
  decode 0b0010_011_000_000_111#16 = .ok (.or 3 0 7) ∧
  decode 0b0011_100_001_000_000#16 = .ok (.not 4 1) ∧
  decode 0b0011_100_001_000_101#16 = .ok (.not 4 1) ∧
  decode 0b1111_000_000_000_000#16 = .ok .halt ∧
  decode 0b1111_000_111_111_111#16 = .ok .halt ∧
  decode 0b0000_000_000_000_000#16 = .error (.illegalOpcode 0#4) ∧
  decode 0b0111_101_010_111_100#16 = .error (.illegalOpcode 7#4)

/-! ## The instructions (41_alu.md, 42_halt.md) -/

/-- R102, ADD: the sum modulo 2^16, for every choice of registers (also DR equal to a source), and nothing else. The width
16 is the spec's decision D1, which R102 carries. -/
def Obligations.AddWritesSum : Prop :=
  ThreeOperandForm 5 ['A', 'D', 'D'] .add ∧
  (∀ (d a b : RegIdx) (s : State),
    Writes (.add d a b) s d (BitVec.ofNat 16 ((s.reg a).toNat + (s.reg b).toNat))) ∧
  (∀ (d a b : RegIdx) (s : State), exec (.add d a b) s = exec (.add d b a) s)

/-- R103, SUB: SR1 minus SR2 modulo 2^16, and nothing else; 0 when the sources are one register; not commutative. The width
16 is the spec's decision D1, which R103 carries. -/
def Obligations.SubWritesDifference : Prop :=
  ThreeOperandForm 1 ['S', 'U', 'B'] .sub ∧
  (∀ (d a b : RegIdx) (s : State),
    Writes (.sub d a b) s d (BitVec.ofNat 16 ((s.reg a).toNat + 65536 - (s.reg b).toNat))) ∧
  (∀ (d a : RegIdx) (s : State), Writes (.sub d a a) s d 0x0000#16) ∧
  (∃ (d a b : RegIdx) (s : State), exec (.sub d a b) s ≠ exec (.sub d b a) s)

/-- R104, AND: bit by bit, and nothing else; a copy when the sources are one register; no effect at all when all three
registers are one. -/
def Obligations.AndWritesConjunction : Prop :=
  ThreeOperandForm 4 ['A', 'N', 'D'] .and ∧
  (∀ (d a b : RegIdx) (s : State), ∃ v : Word, Writes (.and d a b) s d v ∧
    ∀ i : Nat, v.toNat.testBit i = ((s.reg a).toNat.testBit i && (s.reg b).toNat.testBit i)) ∧
  (∀ (d a : RegIdx) (s : State), Writes (.and d a a) s d (s.reg a)) ∧
  (∀ (d : RegIdx) (s : State), exec (.and d d d) s = .next s) ∧
  (∀ (d a b : RegIdx) (s : State), exec (.and d a b) s = exec (.and d b a) s)

/-- R105, OR: bit by bit, and nothing else; a copy when the sources are one register; no effect at all when all three
registers are one. -/
def Obligations.OrWritesDisjunction : Prop :=
  ThreeOperandForm 2 ['O', 'R'] .or ∧
  (∀ (d a b : RegIdx) (s : State), ∃ v : Word, Writes (.or d a b) s d v ∧
    ∀ i : Nat, v.toNat.testBit i = ((s.reg a).toNat.testBit i || (s.reg b).toNat.testBit i)) ∧
  (∀ (d a : RegIdx) (s : State), Writes (.or d a a) s d (s.reg a)) ∧
  (∀ (d : RegIdx) (s : State), exec (.or d d d) s = .next s) ∧
  (∀ (d a b : RegIdx) (s : State), exec (.or d a b) s = exec (.or d b a) s)

/-- R106, NOT: 0xFFFF minus the source, and nothing else; every word of opcode 3 is NOT whatever its SR2 field holds; two
NOTs give back the original value. -/
def Obligations.NotWritesComplement : Prop :=
  (∀ w : Word, w &&& 0xF000#16 = 0x3000#16 → decode w = .ok (.not (drOf w) (sr1Of w))) ∧
  (∀ d a : RegIdx, encode (.not d a) = BitVec.ofNat 16 (3 * 4096 + d.val * 512 + a.val * 64)) ∧
  (∀ d a : RegIdx, parseTokens [['N', 'O', 'T'], regText d, regText a] = .ok (some (.not d a))) ∧
  (∀ (d a : RegIdx) (s : State), Writes (.not d a) s d (BitVec.ofNat 16 (65535 - (s.reg a).toNat))) ∧
  (∀ (d a : RegIdx) (s : State), ∃ t, exec (.not d a) s = .next t ∧ Writes (.not d d) t d (s.reg a))

/-- R110 and R111, HALT: its words, its assembly form, its whole effect, and the step that runs it, which leaves status
HALTED. (That the latches stay is the spec's decision D3, which R111 carries.) -/
def Obligations.HaltStopsTheCore : Prop :=
  encode .halt = 0xF000#16 ∧
  (∀ w : Word, w &&& 0xF000#16 = 0xF000#16 → decode w = .ok .halt) ∧
  parseTokens [['H', 'A', 'L', 'T']] = .ok (some .halt) ∧
  (∀ s : State, exec .halt s = .next { s with running := false, phase := .halted }) ∧
  (∀ s : State, s.Live → s.fault = false → opOf (s.wordAt s.pc) = 15 →
    ∃ t, step s = .next t ∧ t = { s with pc := s.pc + 1#16, running := false, phase := .halted } ∧
      t.status = .halted ∧ t.outcome = .halted)

/-- R101: what all five ALU ops have in common, on the step that runs one: the register of the DR field is written with the
16-bit result, no other register changes, the pc moves by the fetch increment, the latches and memory stay, and the outcome
is CONTINUE. The width 16 is the spec's decision D1. -/
def Obligations.AluStepTouchesOneRegister : Prop :=
  ∀ s : State, s.Live → AluWord (s.wordAt s.pc) →
    ∃ t, step s = .next t ∧ t.outcome = .continued ∧
      t.reg (drOf (s.wordAt s.pc)) = wordResult (s.wordAt s.pc) s.reg ∧
      OnlyWrites [drOf (s.wordAt s.pc)] { s with pc := s.pc + 1#16, phase := .running } t

/-- 41_alu.md R108: negation is NOT then ADD of a register holding 1, or SUB from a register holding 0; the two leave the
same state. -/
def Obligations.NegationTwoWays : Prop :=
  ∀ (s : State) (d r one zero : RegIdx), s.reg one = 1#16 → s.reg zero = 0#16 → one ≠ d →
    ∃ t u, exec (.not d r) s = .next t ∧ exec (.add d d one) t = .next u ∧ exec (.sub d zero r) s = .next u

/-! ## The step (40_sequencer.md) -/

/-- A step is `exec` of the instruction the word at the pc decodes to, after the pc was incremented and phase Ready became
Running (R87 to R90). -/
def Obligations.StepRunsDecodedInstruction : Prop :=
  ∀ (s : State) (i : Instr), s.running = true → decode (s.wordAt s.pc) = .ok i →
    step s = exec i { s with pc := s.pc + 1#16, phase := if s.phase = .ready then .running else s.phase }

/-- R91: the whole step is the spec's pseudocode, in exact arithmetic, with the whole next state and the outcome given. The
16-bit width and the latches are the spec's decisions D1 and D3, which R91 carries. -/
def Obligations.StepIsThePseudocode : Prop :=
  ∀ s : State, s.Live →
    let w := s.wordAt s.pc
    let d := drOf w
    let a := s.reg (sr1Of w)
    let b := s.reg (sr2Of w)
    let s' : State := { s with pc := BitVec.ofNat 16 (s.pc.toNat + 1), phase := .running }
    let result (v : Nat) : Host.Outcome State Fault Refusal := .next { s' with x := s.x.set d (BitVec.ofNat 16 v) }
    (opOf w = 5 → step s = result (a.toNat + b.toNat)) ∧
    (opOf w = 1 → step s = result (a.toNat + 65536 - b.toNat)) ∧
    (opOf w = 4 → step s = result (a.toNat &&& b.toNat)) ∧
    (opOf w = 2 → step s = result (a.toNat ||| b.toNat)) ∧
    (opOf w = 3 → step s = result (65535 - a.toNat)) ∧
    (opOf w = 15 → step s = .next { s' with running := false, phase := .halted }) ∧
    (IllegalWord w → step s = .next { s' with
      running := false, phase := .halted, fault := true, faultOpcode := BitVec.ofNat 4 (opOf w), faultAddr := s.pc }) ∧
    (∃ t, step s = .next t ∧ (AluWord w → t.outcome = .continued) ∧
      (opOf w = 15 → s.fault = false → t.outcome = .halted) ∧ (IllegalWord w → t.outcome = .faulted))

/-- The sub-blocks of 00_scope.md R2 wired as 10_state.md section 4, 30_encoding.md R57, R58 and 41_alu.md R100 say perform
exactly the step, from every state. The ports and the split into sub-blocks are the spec's own realisation of the source's
assignments and of the rubric (92_eei_decisions.md D7 and D11, which 10_state.md R18 and 00_scope.md R2 carry). -/
def Obligations.DatapathPerformsTheStep : Prop :=
  ∀ s : State, step s = .next (datapathStep s)

/-- R93: no instruction transfers control. No instruction changes the pc, every step of a live core leaves the pc at the
fetch address plus 1 modulo 2^16, and after `k` steps that did not stop the core it is `k` past where it was. (The wrap at
0xFFFF is the spec's decision D2.) -/
def Obligations.PcOnlyCountsUp : Prop :=
  (∀ (i : Instr) (s : State), ∃ t, exec i s = .next t ∧ t.pc = s.pc) ∧
  (∀ s : State, s.Live → ∃ t, step s = .next t ∧ t.pc = BitVec.ofNat 16 (s.pc.toNat + 1)) ∧
  (∀ (k : Nat) (s : State), s.Live → ∃ t, stepN k s = .next t ∧
    (t.Live → t.pc = BitVec.ofNat 16 (s.pc.toNat + k)))

/-- 20_memory.md R33: no instruction writes the instruction memory, and none reads it as data: with other contents an
instruction does the same. -/
def Obligations.NoInstructionUsesMemory : Prop :=
  ∀ (i : Instr) (s : State) (m : Memory), ∃ t, exec i s = .next t ∧ t.imem = s.imem ∧
    exec i { s with imem := m } = .next { t with imem := m }

/-- R94 with R27: the status as a function of `phase` and `fault`, with its 2-bit code, and the three outcomes of a STEP
request, each for its words, seen on the status. The 2-bit encoding is the spec's own choice (R27, decision D12). -/
def Obligations.StepOutcomes : Prop :=
  (∀ s : State,
    (s.phase = .ready → s.status = .ready ∧ s.status.code = 0b00#2) ∧
    (s.phase = .running → s.status = .running ∧ s.status.code = 0b01#2) ∧
    (s.phase = .halted → s.fault = false → s.status = .halted ∧ s.status.code = 0b10#2) ∧
    (s.phase = .halted → s.fault = true → s.status = .faulted ∧ s.status.code = 0b11#2)) ∧
  (∀ s : State, s.Live → s.fault = false →
    ∃ t o, handle .step s = (t, .stepped o) ∧
      (AluWord (s.wordAt s.pc) → o = .continued ∧ t.status = .running) ∧
      (opOf (s.wordAt s.pc) = 15 → o = .halted ∧ t.status = .halted ∧ t.fault = false) ∧
      (IllegalWord (s.wordAt s.pc) → o = .faulted ∧ t.status = .faulted ∧
        t.faultOpcode = BitVec.ofNat 4 (opOf (s.wordAt s.pc)) ∧ t.faultAddr = s.pc))

/-- 40_sequencer.md R99 and 70_reset_and_hazards.md R150: a result is the operand of the very next instruction. For any ALU
word followed by any ALU word, the second reads through SR1 and SR2 the registers as the first left them. -/
def Obligations.ResultIsReadyForTheNextStep : Prop :=
  ∀ s : State, s.Live → AluWord (s.wordAt s.pc) → AluWord (s.wordAt (s.pc + 1#16)) →
    ∃ t, stepN 2 s = .next t ∧
      ∀ r, t.reg r = regsAfter (s.wordAt (s.pc + 1#16)) (regsAfter (s.wordAt s.pc) s.reg) r

/-! ## The exception (60_exceptions.md) -/

/-- R117: taking IllegalOpcode, with the whole next state: the latches, the stop, the incremented pc, and no register or
memory word changed. That three latches hold the report is the spec's decision D3, which R117 carries. -/
def Obligations.IllegalOpcodeIsLatched : Prop :=
  ∀ s : State, s.Live → IllegalWord (s.wordAt s.pc) →
    ∃ t, step s = .next t ∧ t.outcome = .faulted ∧
      t = { s with
        pc := s.pc + 1#16, running := false, phase := .halted
        fault := true, faultOpcode := BitVec.ofNat 4 (opOf (s.wordAt s.pc)), faultAddr := s.pc }

/-- R116: the one exception is raised exactly by a word whose opcode is 0 or 6 to 14; a step that raises it reports the
opcode and the address and halts, told apart from a HALT; no other request of the host raises it. -/
def Obligations.OnlyIllegalOpcodesFault : Prop :=
  (∀ s : State, s.Live → s.fault = false →
    ∃ t, step s = .next t ∧ (t.fault = true ↔ IllegalWord (s.wordAt s.pc)) ∧
      (t.fault = true → t.faultOpcode.toNat = opOf (s.wordAt s.pc) ∧ t.faultAddr = s.pc ∧ t.phase = .halted ∧
        t.status ≠ .halted)) ∧
  (∀ (s : State) (q : Request), q ≠ .step → s.fault = false → (handle q s).1.fault = false)

/-- 60_exceptions.md R118: after a step that raised the fault, the faulting address is the pc minus 1 modulo 2^16, and the whole faulting word still stands there. -/
def Obligations.FaultingWordCanBeReadBack : Prop :=
  ∀ s t : State, s.Live → s.fault = false → step s = .next t → t.fault = true →
    t.faultAddr = t.pc - 1#16 ∧ t.wordAt t.faultAddr = s.wordAt s.pc ∧
      opOf (t.wordAt t.faultAddr) = t.faultOpcode.toNat

/-! ## Runs (40_sequencer.md section 2) -/

/-- R97 and 70_reset_and_hazards.md R155, with 60_exceptions.md R119: a run stops at the first stopping word, `n` words
ahead, after exactly `n + 1` steps; RUN with at least that fuel returns that end; the stopping word itself writes no
register; the end is a fault exactly when the word is illegal. -/
def Obligations.RunStopsAtFirstStoppingWord : Prop :=
  ∀ (s : State) (n : Nat), s.Live → s.fault = false →
    (∀ j < n, AluWord (s.wordAt (s.pc + BitVec.ofNat 16 j))) →
    ¬ AluWord (s.wordAt (s.pc + BitVec.ofNat 16 n)) →
    ∃ t u, EndsIn s (n + 1) t ∧ stepN n s = .next u ∧ t.x = u.x ∧ t.imem = s.imem ∧
      t.pc = s.pc + BitVec.ofNat 16 n + 1#16 ∧
      (t.status = .faulted ↔ IllegalWord (s.wordAt (s.pc + BitVec.ofNat 16 n))) ∧
      (t.status = .halted ↔ opOf (s.wordAt (s.pc + BitVec.ofNat 16 n)) = 15) ∧
      ∀ fuel, n + 1 ≤ fuel → runFuel fuel s = .next (.ended t.outcome t)

/-- 70_reset_and_hazards.md R149 with R97: from a live core without a latched fault, a run ends normally exactly when the
first word that is no ALU op is a HALT, and ends unsafely exactly when it is an illegal word. -/
def Obligations.RunEndsNormallyExactlyAtAHalt : Prop :=
  ∀ s : State, s.Live → s.fault = false →
    (EndsNormally s ↔ ∃ n : Nat, (∀ j < n, AluWord (s.wordAt (s.pc + BitVec.ofNat 16 j))) ∧
      opOf (s.wordAt (s.pc + BitVec.ofNat 16 n)) = 15) ∧
    ((∃ k t, EndsIn s k t ∧ ¬ t.Safe) ↔ ∃ n : Nat, (∀ j < n, AluWord (s.wordAt (s.pc + BitVec.ofNat 16 j))) ∧
      IllegalWord (s.wordAt (s.pc + BitVec.ofNat 16 n)))

/-- R97: over memory in which some word stops, every run ends within 65536 steps. -/
def Obligations.RunIsBounded : Prop :=
  ∀ s : State, s.Live → (∃ a : Addr, ¬ AluWord (s.wordAt a)) → ∃ k t, k ≤ 65536 ∧ EndsIn s k t

/-- R97, the exception: over memory in which every word is an ALU op, no run ends, and under any fuel RUN has not ended. -/
def Obligations.RunWithoutStoppingWordNeverEnds : Prop :=
  ∀ s : State, s.Live → (∀ a : Addr, AluWord (s.wordAt a)) →
    NeverEnds s ∧ ∀ fuel, ∃ t, runFuel fuel s = .next (.outOfFuel t)

/-- 60_exceptions.md R123 and 40_sequencer.md R90, R93: the opcodes alone decide the control of a run. With any other register
values, and with any other memory that has the same opcode at every address, `k` steps give a state that differs in the
registers and the memory only. -/
def Obligations.ControlDoesNotDependOnRegisters : Prop :=
  ∀ (k : Nat) (s : State) (y : Vector Word 8) (m : Memory),
    (∀ a : Addr, opOf (m.read a.toNat) = opOf (s.wordAt a)) →
    ∃ (t : State) (z : Vector Word 8),
      stepN k s = .next t ∧ stepN k { s with x := y, imem := m } = .next { t with x := z, imem := m }

/-! ## Reset, host requests, invariant (10_state.md, 20_memory.md, 70_reset_and_hazards.md) -/

/-- 70_reset_and_hazards.md R134: RESET, from any state, sets every field to its reset value. (The latches and their reset
values are the spec's decision D3, which R134 carries.) -/
def Obligations.ResetSetsEveryField : Prop :=
  ∀ s : State, ∃ t, handle .reset s = (t, .done) ∧
    (∀ a : Addr, t.wordAt a = 0x0000#16) ∧ (∀ r : RegIdx, t.reg r = 0x0000#16) ∧
    t.pc = 0x0000#16 ∧ t.running = true ∧ t.phase = .ready ∧
    t.fault = false ∧ t.faultOpcode = 0x0#4 ∧ t.faultAddr = 0x0000#16

/-- 20_memory.md R41 and R44: LOAD writes the words from address 0 and sets the pc to 0; every other word and every other
field is as before. (Phase Ready is the spec's decision D5.) -/
def Obligations.LoadWritesWordsFromZero : Prop :=
  ∀ (s : State) (words : List Word), s.imem.wf → s.phase = .ready → words.length ≤ 65536 →
    ∃ t, handle (.load words) s = (t, .done) ∧ t.imem.wf ∧
      (∀ (i : Nat) (h : i < words.length), t.imem.read i = words[i]) ∧
      (∀ a : Nat, words.length ≤ a → t.imem.read a = s.imem.read a) ∧
      t.pc = 0x0000#16 ∧ t.x = s.x ∧ t.running = s.running ∧ t.phase = s.phase ∧
      t.fault = s.fault ∧ t.faultOpcode = s.faultOpcode ∧ t.faultAddr = s.faultAddr

/-- 20_memory.md R42 and R43: a LOAD outside phase Ready, or of more than 65536 words, is refused and changes nothing (the
spec's decision D5, which both rules carry). -/
def Obligations.LoadIsRefusedWhole : Prop :=
  ∀ (s : State) (words : List Word), s.phase ≠ .ready ∨ 65536 < words.length →
    ∃ r, handle (.load words) s = (s, .refused r)

/-- 70_reset_and_hazards.md R140: PRESET writes one register in phase Ready, and is refused without change elsewhere
(the spec's decision D6, which R140 carries). -/
def Obligations.PresetWritesOneRegister : Prop :=
  ∀ (s : State) (i : RegIdx) (v : Word),
    (s.phase = .ready → ∃ t, handle (.preset i v) s = (t, .done) ∧ t.reg i = v ∧ OnlyWrites [i] s t) ∧
    (s.phase ≠ .ready → ∃ r, handle (.preset i v) s = (s, .refused r))

/-- 70_reset_and_hazards.md R145: what a host cannot do by LOAD, PRESET or READOUT. -/
def Obligations.HostKeepsToItsLimits : Prop :=
  ∀ (s : State) (q : Request), q ≠ .reset → q ≠ .step →
    (s.phase ≠ .ready → (handle q s).1 = s) ∧
    ((∀ words, q ≠ .load words) → (handle q s).1.pc = s.pc ∧ (handle q s).1.imem = s.imem) ∧
    (handle q s).1.fault = s.fault ∧ (handle q s).1.faultOpcode = s.faultOpcode ∧ (handle q s).1.faultAddr = s.faultAddr

/-- 42_halt.md R113 with 40_sequencer.md R95 and R96: a halted core is changed by no sequence of requests without a RESET; a
STEP answers the standing status, a RUN takes no step and returns it; a RESET leaves the halted state. (The spec's decision D4,
which R95 and R113 carry.) -/
def Obligations.HaltedIsTerminal : Prop :=
  ∀ s : State, s.running = false → s.phase = .halted →
    (∀ qs : List Request, .reset ∉ qs → handleAll qs s = s) ∧
    handle .step s = (s, .stepped (if s.fault then .faulted else .halted)) ∧
    (∀ fuel, runFuel fuel s = .next (.ended (if s.fault then .faulted else .halted) s)) ∧
    (handle .reset s).1 = State.reset ∧ (handle .reset s).1.phase = .ready

/-- 10_state.md R26 and R23: how the phase and `running` move, request by request; that no instruction can tell the phase;
and that the host can, by READOUT. (R26 carries the spec's decisions D4 and D21.) -/
def Obligations.PhaseAndRunningMoves : Prop :=
  (∀ s : State, (handle .reset s).1.phase = .ready ∧ (handle .reset s).1.running = true) ∧
  (∀ s : State, s.running = true → s.phase = .ready → step s = step { s with phase := .running }) ∧
  (∀ s : State, s.Live → ∃ t, step s = .next t ∧
    (AluWord (s.wordAt s.pc) → t.phase = .running ∧ t.running = true) ∧
    (¬ AluWord (s.wordAt s.pc) → t.phase = .halted ∧ t.running = false)) ∧
  (∀ (s : State) (q : Request), q ≠ .reset → q ≠ .step →
    (handle q s).1.phase = s.phase ∧ (handle q s).1.running = s.running) ∧
  (∀ s : State, s.running = false → step s = .next s) ∧
  (∀ (s : State) (q : Request), q ≠ .reset → s.Inv → s.phase = .halted → (handle q s).1.phase = .halted) ∧
  (∀ (i : Instr) (s : State) (p : Phase), ∃ t u, exec i s = .next t ∧ exec i { s with phase := p } = .next u ∧
    u.x = t.x ∧ u.pc = t.pc ∧ u.imem = t.imem) ∧
  (∀ s : State, ∃ r, handle .readout s = (s, .values r) ∧
    (r.status = .ready ↔ s.phase = .ready) ∧ (r.status = .running ↔ s.phase = .running)) ∧
  (∀ s : State, s.Inv → ((s.phase = .ready ∨ s.phase = .running → s.running = true) ∧
    (s.phase = .halted → s.running = false)))

/-- The invariant holds after reset. -/
def Obligations.ResetMeetsTheInvariant : Prop := State.reset.Inv

/-- Every step keeps the invariant: the memory's canonical form, `running` in step with the phase, and the fault latches in
step with the pc and the word in memory. -/
def Obligations.StepKeepsTheInvariant : Prop :=
  ∀ s t : State, s.Inv → step s = .next t → t.Inv

/-- Every request of a host keeps the invariant, so it holds in every state a host can reach from reset. -/
def Obligations.EveryReachableStateMeetsTheInvariant : Prop :=
  (∀ (q : Request) (s : State), s.Inv → (handle q s).1.Inv) ∧
  ∀ qs : List Request, (handleAll qs State.reset).Inv

/-- 70_reset_and_hazards.md R147 and R148: after the boot order the words are in place with 0x0000 above them, the pc is 0,
the core is live, and a register holds its PRESET value or 0x0000. -/
def Obligations.BootPutsTheProgramInPlace : Prop :=
  ∀ (s : State) (words : List Word) (presets : List (RegIdx × Word)), words.length ≤ 65536 →
    (presets.map Prod.fst).Nodup →
    (boot words presets s).Live ∧ (boot words presets s).pc = 0x0000#16 ∧
    (∀ (i : Nat) (h : i < words.length), (boot words presets s).imem.read i = words[i]) ∧
    (∀ a : Nat, words.length ≤ a → (boot words presets s).imem.read a = 0x0000#16) ∧
    (∀ p ∈ presets, (boot words presets s).reg p.1 = p.2) ∧
    (∀ r : RegIdx, r ∉ presets.map Prod.fst → (boot words presets s).reg r = 0x0000#16)

/-! ## The toolchain (30_encoding.md sections 5 and 6) -/

/-- R77: an instruction's assembly form, with its comma and space separators, assembles to it. -/
def Obligations.AssemblyFormAssembles : Prop :=
  ∀ (p : Config.LineOverflowPolicy) (n : Nat) (i : Instr),
    parseLine (instrText i) = .ok (some i) ∧ assembleLine p n (instrText i) = .ok [encode i]

/-- R73, R74 and R75: a token list is accepted exactly when it is an instruction's tokens, up to the case of a register's
prefix letter, which alone may be lower case. -/
def Obligations.AcceptedTokensAreExactly : Prop :=
  ∀ (ts : List Text) (i : Instr),
    parseTokens ts = .ok (some i) ↔
      (ts.map fun t => match t with | ['r', d] => ['R', d] | t => t) = instrTokens i

/-- R73 and R74: which error a rejected line gives before its registers are read, and the token it names. -/
def Obligations.UnknownNamesAndCountsAreRejected : Prop :=
  ∀ (name : Text) (operands : List Text),
    (name ∉ [['A', 'D', 'D'], ['S', 'U', 'B'], ['A', 'N', 'D'], ['O', 'R'], ['N', 'O', 'T'], ['H', 'A', 'L', 'T']] →
      parseTokens (name :: operands) = .error (.unknownMnemonic, name)) ∧
    (name ∈ [['A', 'D', 'D'], ['S', 'U', 'B'], ['A', 'N', 'D'], ['O', 'R']] → operands.length ≠ 3 →
      parseTokens (name :: operands) = .error (.wrongOperandCount, name)) ∧
    (name = ['N', 'O', 'T'] → operands.length ≠ 2 →
      parseTokens (name :: operands) = .error (.wrongOperandCount, name)) ∧
    (name = ['H', 'A', 'L', 'T'] → operands.length ≠ 0 →
      parseTokens (name :: operands) = .error (.wrongOperandCount, name))

/-- R74 and R76: the token-count limit and the token-length bound never change a line's verdict. -/
def Obligations.TokenBoundsChangeNoVerdict : Prop :=
  ∀ ts : List Text, (parseTokens (boundTokens ts)).toOption = (parseTokens ts).toOption

/-- 95_test_vectors.md L1.4, from R69 and R70: stripping and trimming a clean line again leaves it unchanged. -/
def Obligations.StripAndTrimIsIdempotent : Prop :=
  ∀ t : Text, trim (stripComment (trim (stripComment t))) = trim (stripComment t)

/-- R78 and R85: the first line that fails aborts the whole assembly with its 1-based number; where nothing fails, the words
are the instructions of the lines in order, a skipped line giving none (for `discardRest`, under which a physical line is
one line). That the bound of 256 characters, `l.take 256`, does not count the line end is the model's choice (log entry 10),
and so is that the pieces of an over-long line keep its number under `restIsNextLine` (log entry 11). -/
def Obligations.AssemblyIsFailFast : Prop :=
  (∀ (p : Config.LineOverflowPolicy) (before after : List Text) (line : Text) (ws : List Word) (e : SyntaxError),
    assemble p before = .ok ws → assembleLine p (before.length + 1) line = .error e →
    assemble p (before ++ line :: after) = .error e ∧ e.line = before.length + 1) ∧
  (∀ (lines : List Text) (ws : List Word), assemble .discardRest lines = .ok ws →
    ws = (lines.filterMap fun l => (parseLine (l.take 256)).toOption.join).map encode)

/-- R55 and R64: every word the assembler makes has bits 5..3 zero, and is the encoding of the instruction it decodes to. -/
def Obligations.AssembledWordsAreCanonical : Prop :=
  ∀ (p : Config.LineOverflowPolicy) (lines : List Text) (ws : List Word), assemble p lines = .ok ws →
    ∀ w ∈ ws, w.toNat / 8 % 8 = 0 ∧ ∃ i, decode w = .ok i ∧ encode i = w

/-- R80 and R82: reading the assembler's output back gives the words, under every policy of the reader. -/
def Obligations.HexTextRoundTrip : Prop :=
  ∀ (p : Config.HexParsePolicy) (wide : Config.WideValuePolicy) (ws : List Word),
    readHex p wide (textLines (emit ws)) = some ws

/-- 70_reset_and_hazards.md R146: the whole-system flow, whatever the reader's policies. A source that assembles to words that
fit is run as those words, booted with the presets; one that assembles to more than 65536 words is refused at LOAD; one that
does not assemble runs nothing. That a text's lines end at the newline alone is the model's choice (log entry 19). -/
def Obligations.FlowLoadsTheAssembledWords : Prop :=
  ∀ (p : Config.LineOverflowPolicy) (hex : Config.HexParsePolicy) (wide : Config.WideValuePolicy) (source : Text)
    (presets : List (RegIdx × Word)) (fuel : Nat),
    (∀ ws, assemble p (textLines source) = .ok ws →
      sourceWords p hex wide source = .ok ws ∧
      (ws.length ≤ 65536 →
        runSource p hex wide source presets fuel = .ok (runFuel fuel (boot ws presets State.reset))) ∧
      (65536 < ws.length → runSource p hex wide source presets fuel = .error .load)) ∧
    (∀ e, assemble p (textLines source) = .error e →
      sourceWords p hex wide source = .error (.assembly e) ∧
      runSource p hex wide source presets fuel = .error (.assembly e))
end

