-- ==== Sys2Proof/Laws/Decode.lean ====
section
/-! SUPPORT. What the opcode decoder and the word decoder can answer. -/
namespace Sys2Proof

/-- The illegal opcodes are 0 and 6 to 14 (30_encoding.md R63). -/
theorem illegalOpcode_iff (op : Opcode) :
    illegalOpcode op = true ↔ op.toNat = 0 ∨ (6 ≤ op.toNat ∧ op.toNat ≤ 14) := by
  revert op; decide

/-- The opcode class of an instruction (30_encoding.md R61). -/
def Instr.cls : Instr → OpClass
  | .add _ _ _ => .add
  | .sub _ _ _ => .sub
  | .and _ _ _ => .and
  | .or _ _ _ => .or
  | .not _ _ => .not
  | .halt => .halt

/-- Everything the decoder can answer: an instruction of the word's class, or the illegal opcode by its value. -/
theorem decode_cases (w : Word) :
    (∃ i, decode w = .ok i ∧ opClass (opField w) = i.cls) ∨
    (decode w = .error (.illegalOpcode (opField w)) ∧ illegalOpcode (opField w) = true) := by
  rcases h : opClass (opField w) with _ | _ | _ | _ | _ | _ | _
  case illegal => exact .inr ⟨by simp [decode, h], by simp [illegalOpcode, h]⟩
  all_goals exact .inl ⟨_, by simp only [decode, h]; rfl, rfl⟩

/-- An accepted word has the class of its instruction. -/
theorem opClass_of_decode_ok {w : Word} {i : Instr} (h : decode w = .ok i) : opClass (opField w) = i.cls := by
  rcases decode_cases w with ⟨j, hj, hc⟩ | ⟨hj, -⟩
  · rw [h] at hj
    injection hj with e
    rw [e, hc]
  · rw [h] at hj
    cases hj

/-- A rejection names the word's own opcode, and it is illegal. -/
theorem illegal_of_decode_error {w : Word} {op : Opcode} (h : decode w = .error (.illegalOpcode op)) :
    op = opField w ∧ illegalOpcode op = true := by
  rcases decode_cases w with ⟨j, hj, -⟩ | ⟨hj, hi⟩
  · rw [h] at hj
    cases hj
  · rw [h] at hj
    injection hj with e
    injection e with e
    exact ⟨e, e ▸ hi⟩

/-- A HALT is decoded from opcode 15 alone. -/
theorem decode_ok_halt_iff (w : Word) : decode w = .ok .halt ↔ opClass (opField w) = .halt := by
  constructor
  · exact fun h => opClass_of_decode_ok h
  · intro h
    simp [decode, h]

end Sys2Proof
end

