-- ==== Sys2Proof/Laws/Memory.lean ====
section
/-! SUPPORT. The laws of the instruction memory: read after write, and that every operation keeps the canonical form. -/
namespace Sys2Proof.Machine

@[simp] theorem Memory.read_nil (a : Nat) : Memory.read [] a = 0x0000#16 := rfl

theorem Memory.wf_nil : Memory.wf [] := by simp [Memory.wf]

/-- The memory after reset is canonical. -/
theorem State.reset_imem_wf : State.reset.imem.wf := Memory.wf_nil

theorem Memory.wf_tail {c : Cell} {m : Memory} (h : Memory.wf (c :: m)) : Memory.wf m :=
  ⟨(List.pairwise_cons.mp h.1).2, fun d hd => h.2 d (List.mem_cons_of_mem _ hd)⟩

/-- An address below every cell of a memory reads as unlisted. -/
theorem Memory.read_below {m : Memory} {a : Nat} (h : ∀ c ∈ m, a < c.1) : Memory.read m a = Memory.unlisted := by
  induction m with
  | nil => rfl
  | cons c m ih =>
    obtain ⟨k, v⟩ := c
    have hk : a < k := h (k, v) (List.mem_cons_self ..)
    have : k ≠ a := by omega
    simp only [Memory.read, this, if_false]
    exact ih fun d hd => h d (List.mem_cons_of_mem _ hd)

/-- In a canonical memory the cells after the first lie above it. -/
theorem Memory.below_tail {k : Nat} {v : Word} {m : Memory} (h : Memory.wf ((k, v) :: m)) {a : Nat} (ha : a ≤ k) :
    ∀ c ∈ m, a < c.1 := fun c hc => lt_of_le_of_lt ha ((List.pairwise_cons.mp h.1).1 c hc)

/-- Read after write, at every address. -/
theorem Memory.read_write {m : Memory} (h : m.wf) (a b : Nat) (w : Word) :
    Memory.read (Memory.write m a w) b = if b = a then w else Memory.read m b := by
  induction m with
  | nil =>
    by_cases hw : w = Memory.unlisted
    · by_cases hb : b = a <;> simp [Memory.write, hw, Memory.unlisted]
    · by_cases hb : b = a
      · simp [Memory.write, Memory.read, hw, hb]
      · have : ¬ a = b := fun e => hb e.symm
        simp [Memory.write, Memory.read, hw, hb, this]
  | cons c m ih =>
    obtain ⟨k, v⟩ := c
    have hlow : ∀ {a : Nat}, a ≤ k → Memory.read m a = Memory.unlisted := fun ha => Memory.read_below (Memory.below_tail h ha)
    specialize ih (Memory.wf_tail h)
    rcases eq_or_ne b a with rfl | hb
    · rw [if_pos rfl] at ih ⊢
      simp only [Memory.write]
      split_ifs with h1 h2 h3 h4
      · simp [Memory.read, show k ≠ b by omega, hlow h1.le, h2]
      · simp [Memory.read]
      · subst h3
        rw [hlow le_rfl, h4]
      · simp [Memory.read]
      · simp [Memory.read, show k ≠ b by omega, ih]
    · rw [if_neg hb] at ih ⊢
      simp only [Memory.write]
      split_ifs with h1 h2 h3 h4
      · rfl
      · simp [Memory.read, hb.symm]
      · simp [Memory.read, show k ≠ b by omega]
      · simp [Memory.read, hb.symm, show k ≠ b by omega]
      · simp [Memory.read, ih]

theorem Memory.read_write_same {m : Memory} (h : m.wf) (a : Nat) (w : Word) : (m.write a w).read a = w := by
  rw [Memory.read_write h, if_pos rfl]

theorem Memory.read_write_other {m : Memory} (h : m.wf) {a b : Nat} (w : Word) (hb : b ≠ a) :
    (m.write a w).read b = m.read b := by rw [Memory.read_write h, if_neg hb]

/-- A cell of a written memory is the new one or an old one. -/
theorem Memory.mem_write {m : Memory} {a : Nat} {w : Word} {c : Cell} (hc : c ∈ Memory.write m a w) :
    (c = (a, w) ∧ w ≠ Memory.unlisted) ∨ c ∈ m := by
  induction m with
  | nil =>
    simp only [Memory.write] at hc
    split_ifs at hc with hw
    · simp at hc
    · simp only [List.mem_singleton] at hc
      exact .inl ⟨hc, hw⟩
  | cons d m ih =>
    obtain ⟨k, v⟩ := d
    simp only [Memory.write] at hc
    split_ifs at hc with h1 h2 h3 h4
    · exact .inr hc
    · rcases List.mem_cons.mp hc with rfl | hc
      · exact .inl ⟨rfl, h2⟩
      · exact .inr hc
    · exact .inr (List.mem_cons_of_mem _ hc)
    · rcases List.mem_cons.mp hc with rfl | hc
      · exact .inl ⟨rfl, h4⟩
      · exact .inr (List.mem_cons_of_mem _ hc)
    · rcases List.mem_cons.mp hc with rfl | hc
      · exact .inr (List.mem_cons_self ..)
      · exact (ih hc).imp id (List.mem_cons_of_mem _)

/-- A write inside the address space keeps the canonical form. -/
theorem Memory.wf_write {m : Memory} (h : m.wf) {a : Nat} (ha : a < Config.imemWords) (w : Word) : (m.write a w).wf := by
  refine ⟨?_, fun c hc => ?_⟩
  · induction m with
    | nil =>
      simp only [Memory.write]
      split_ifs <;> simp
    | cons d m ih =>
      obtain ⟨k, v⟩ := d
      have hp := List.pairwise_cons.mp h.1
      simp only [Memory.write]
      split_ifs with h1 h2 h3 h4
      · exact h.1
      · refine List.pairwise_cons.mpr ⟨fun c hc => ?_, h.1⟩
        rcases List.mem_cons.mp hc with rfl | hc
        · exact h1
        · exact lt_trans h1 (hp.1 c hc)
      · exact hp.2
      · subst h3
        exact List.pairwise_cons.mpr ⟨hp.1, hp.2⟩
      · refine List.pairwise_cons.mpr ⟨fun c hc => ?_, ih (Memory.wf_tail h)⟩
        rcases Memory.mem_write hc with ⟨rfl, -⟩ | hc
        · show k < a
          omega
        · exact hp.1 c hc
  · rcases Memory.mem_write hc with ⟨rfl, hw⟩ | hc
    · exact ⟨ha, hw⟩
    · exact h.2 c hc

/-- LOAD's loop keeps the canonical form while it stays inside the address space. -/
theorem Memory.wf_loadFrom {m : Memory} (h : m.wf) (a : Nat) (ws : List Word) (hlen : a + ws.length ≤ Config.imemWords) :
    (m.loadFrom a ws).wf := by
  induction ws generalizing m a with
  | nil => exact h
  | cons w ws ih =>
    simp only [List.length_cons] at hlen
    exact ih (Memory.wf_write h (by omega) w) (a + 1) (by omega)

/-- What LOAD's loop leaves at every address (20_memory.md R41). -/
theorem Memory.read_loadFrom {m : Memory} (h : m.wf) (a : Nat) (ws : List Word) (hlen : a + ws.length ≤ Config.imemWords)
    (b : Nat) : (m.loadFrom a ws).read b = if a ≤ b then (ws[b - a]?).getD (m.read b) else m.read b := by
  induction ws generalizing m a with
  | nil => simp [Memory.loadFrom]
  | cons w ws ih =>
    simp only [List.length_cons] at hlen
    rw [Memory.loadFrom, ih (Memory.wf_write h (by omega) w) (a + 1) (by omega), Memory.read_write h]
    rcases lt_trichotomy b a with hb | rfl | hb
    · simp [show ¬ a + 1 ≤ b by omega, show b ≠ a by omega, show ¬ a ≤ b by omega]
    · simp
    · rw [if_pos (show a + 1 ≤ b by omega), if_pos (show a ≤ b by omega), if_neg (show b ≠ a by omega),
        show b - a = (b - (a + 1)) + 1 by omega, List.getElem?_cons_succ]

/-- A memory filled with one word from address `k` on reads it there. -/
theorem Memory.read_fill (w : Word) (n k a : Nat) (h1 : k ≤ a) (h2 : a < k + n) :
    Memory.read ((List.range' k n).map fun i => (i, w)) a = w := by
  induction n generalizing k with
  | zero => omega
  | succ n ih =>
    rw [List.range'_succ, List.map_cons, Memory.read]
    split
    · rfl
    · next h => exact ih (k + 1) (by omega) (by omega)

/-- Equal reads make equal canonical memories: equal memories are equal data. -/
theorem Memory.ext_of_read {m n : Memory} (hm : m.wf) (hn : n.wf) (h : ∀ a, m.read a = n.read a) : m = n := by
  induction m generalizing n with
  | nil =>
    cases n with
    | nil => rfl
    | cons d n =>
      obtain ⟨k, v⟩ := d
      have hv := h k
      simp only [Memory.read, if_true] at hv
      exact absurd hv.symm (hn.2 (k, v) (List.mem_cons_self ..)).2
  | cons c m ih =>
    obtain ⟨k, v⟩ := c
    have hv0 := (hm.2 (k, v) (List.mem_cons_self ..)).2
    cases n with
    | nil =>
      have hv := h k
      simp only [Memory.read, if_true] at hv
      exact absurd hv hv0
    | cons d n =>
      obtain ⟨l, u⟩ := d
      have hu0 := (hn.2 (l, u) (List.mem_cons_self ..)).2
      have hkl : k = l := by
        rcases lt_trichotomy k l with hlt | heq | hlt
        · have hv := h k
          simp only [Memory.read, if_true] at hv
          rw [if_neg (show l ≠ k by omega), Memory.read_below (Memory.below_tail hn hlt.le)] at hv
          exact absurd hv hv0
        · exact heq
        · have hu := h l
          simp only [Memory.read, if_true] at hu
          rw [if_neg (show k ≠ l by omega), Memory.read_below (Memory.below_tail hm hlt.le)] at hu
          exact absurd hu.symm hu0
      subst hkl
      have hvu : v = u := by simpa [Memory.read] using h k
      subst hvu
      rw [ih (Memory.wf_tail hm) (Memory.wf_tail hn) fun a => ?_]
      by_cases ha : k = a
      · subst ha
        rw [Memory.read_below (Memory.below_tail hm le_rfl), Memory.read_below (Memory.below_tail hn le_rfl)]
      · simpa [Memory.read, ha] using h a

end Sys2Proof.Machine
end

