-- ==== Sys2Proof/Laws/State.lean ====
section
/-! SUPPORT. One lemma per field for each update of State (true by rfl), so that later proofs unfold no record update, and
the laws of the register file. -/
namespace Sys2Proof.Machine

/-! ## State.setReg -/

@[simp] theorem State.setReg_imem (s : State) (i : RegIdx) (v : Word) :
    (s.setReg i v).imem = s.imem := rfl
@[simp] theorem State.setReg_x (s : State) (i : RegIdx) (v : Word) :
    (s.setReg i v).x = s.x.set i v := rfl
@[simp] theorem State.setReg_pc (s : State) (i : RegIdx) (v : Word) :
    (s.setReg i v).pc = s.pc := rfl
@[simp] theorem State.setReg_running (s : State) (i : RegIdx) (v : Word) :
    (s.setReg i v).running = s.running := rfl
@[simp] theorem State.setReg_phase (s : State) (i : RegIdx) (v : Word) :
    (s.setReg i v).phase = s.phase := rfl
@[simp] theorem State.setReg_fault (s : State) (i : RegIdx) (v : Word) :
    (s.setReg i v).fault = s.fault := rfl
@[simp] theorem State.setReg_faultOpcode (s : State) (i : RegIdx) (v : Word) :
    (s.setReg i v).faultOpcode = s.faultOpcode := rfl
@[simp] theorem State.setReg_faultAddr (s : State) (i : RegIdx) (v : Word) :
    (s.setReg i v).faultAddr = s.faultAddr := rfl

/-! ## beginStep -/

@[simp] theorem beginStep_imem (s : State) :
    (beginStep s).imem = s.imem := rfl
@[simp] theorem beginStep_x (s : State) :
    (beginStep s).x = s.x := rfl
@[simp] theorem beginStep_pc (s : State) :
    (beginStep s).pc = s.pc + 1#16 := rfl
@[simp] theorem beginStep_running (s : State) :
    (beginStep s).running = s.running := rfl
@[simp] theorem beginStep_phase (s : State) :
    (beginStep s).phase = if s.phase = .ready then .running else s.phase := rfl
@[simp] theorem beginStep_fault (s : State) :
    (beginStep s).fault = s.fault := rfl
@[simp] theorem beginStep_faultOpcode (s : State) :
    (beginStep s).faultOpcode = s.faultOpcode := rfl
@[simp] theorem beginStep_faultAddr (s : State) :
    (beginStep s).faultAddr = s.faultAddr := rfl

/-! ## stop -/

@[simp] theorem stop_imem (s : State) :
    (stop s).imem = s.imem := rfl
@[simp] theorem stop_x (s : State) :
    (stop s).x = s.x := rfl
@[simp] theorem stop_pc (s : State) :
    (stop s).pc = s.pc := rfl
@[simp] theorem stop_running (s : State) :
    (stop s).running = false := rfl
@[simp] theorem stop_phase (s : State) :
    (stop s).phase = .halted := rfl
@[simp] theorem stop_fault (s : State) :
    (stop s).fault = s.fault := rfl
@[simp] theorem stop_faultOpcode (s : State) :
    (stop s).faultOpcode = s.faultOpcode := rfl
@[simp] theorem stop_faultAddr (s : State) :
    (stop s).faultAddr = s.faultAddr := rfl

/-! ## takeIllegalOpcode -/

@[simp] theorem takeIllegalOpcode_imem (op : Opcode) (a : Addr) (s : State) :
    (takeIllegalOpcode op a s).imem = s.imem := rfl
@[simp] theorem takeIllegalOpcode_x (op : Opcode) (a : Addr) (s : State) :
    (takeIllegalOpcode op a s).x = s.x := rfl
@[simp] theorem takeIllegalOpcode_pc (op : Opcode) (a : Addr) (s : State) :
    (takeIllegalOpcode op a s).pc = s.pc := rfl
@[simp] theorem takeIllegalOpcode_running (op : Opcode) (a : Addr) (s : State) :
    (takeIllegalOpcode op a s).running = false := rfl
@[simp] theorem takeIllegalOpcode_phase (op : Opcode) (a : Addr) (s : State) :
    (takeIllegalOpcode op a s).phase = .halted := rfl
@[simp] theorem takeIllegalOpcode_fault (op : Opcode) (a : Addr) (s : State) :
    (takeIllegalOpcode op a s).fault = true := rfl
@[simp] theorem takeIllegalOpcode_faultOpcode (op : Opcode) (a : Addr) (s : State) :
    (takeIllegalOpcode op a s).faultOpcode = op := rfl
@[simp] theorem takeIllegalOpcode_faultAddr (op : Opcode) (a : Addr) (s : State) :
    (takeIllegalOpcode op a s).faultAddr = a := rfl

/-! ## State.withFetchWord -/

@[simp] theorem State.withFetchWord_imem (s : State) (nbits w : Nat) :
    (s.withFetchWord nbits w).imem = s.imem.write s.pc.toNat (tableWord nbits w) := rfl
@[simp] theorem State.withFetchWord_x (s : State) (nbits w : Nat) :
    (s.withFetchWord nbits w).x = s.x := rfl
@[simp] theorem State.withFetchWord_pc (s : State) (nbits w : Nat) :
    (s.withFetchWord nbits w).pc = s.pc := rfl
@[simp] theorem State.withFetchWord_running (s : State) (nbits w : Nat) :
    (s.withFetchWord nbits w).running = true := rfl
@[simp] theorem State.withFetchWord_phase (s : State) (nbits w : Nat) :
    (s.withFetchWord nbits w).phase = s.phase := rfl
@[simp] theorem State.withFetchWord_fault (s : State) (nbits w : Nat) :
    (s.withFetchWord nbits w).fault = s.fault := rfl
@[simp] theorem State.withFetchWord_faultOpcode (s : State) (nbits w : Nat) :
    (s.withFetchWord nbits w).faultOpcode = s.faultOpcode := rfl
@[simp] theorem State.withFetchWord_faultAddr (s : State) (nbits w : Nat) :
    (s.withFetchWord nbits w).faultAddr = s.faultAddr := rfl

/-! ## The register file -/

@[simp] theorem State.reg_setReg_same (s : State) (i : RegIdx) (v : Word) : (s.setReg i v).reg i = v := by
  simp [State.reg]

theorem State.reg_setReg_other (s : State) {i r : RegIdx} (v : Word) (h : r ≠ i) : (s.setReg i v).reg r = s.reg r := by
  simp only [State.reg, State.setReg_x]
  exact Vector.getElem_set_ne _ _ (fun e => h (Fin.ext e.symm))

theorem State.reg_setReg (s : State) (i r : RegIdx) (v : Word) :
    (s.setReg i v).reg r = if r = i then v else s.reg r := by
  split
  · next h => rw [h, State.reg_setReg_same]
  · next h => exact State.reg_setReg_other s v h

@[simp] theorem State.reg_beginStep (s : State) (r : RegIdx) : (beginStep s).reg r = s.reg r := rfl
@[simp] theorem State.reg_stop (s : State) (r : RegIdx) : (stop s).reg r = s.reg r := rfl
@[simp] theorem State.reg_takeIllegalOpcode (op : Opcode) (a : Addr) (s : State) (r : RegIdx) :
    (takeIllegalOpcode op a s).reg r = s.reg r := rfl

/-- Two states with the same value in every register have the same register file. -/
theorem State.x_ext {s t : State} (h : ∀ r : RegIdx, s.reg r = t.reg r) : s.x = t.x := by
  apply Vector.ext
  intro i hi
  exact h ⟨i, hi⟩

/-- Writing a register's own value back changes nothing (30_encoding.md R65). -/
theorem State.setReg_self (s : State) (i : RegIdx) : s.setReg i (s.reg i) = s := by
  have : (s.setReg i (s.reg i)).x = s.x := State.x_ext fun r => by
    rw [State.reg_setReg]
    split
    · next h => rw [h]
    · rfl
  cases s
  simp_all [State.setReg]

/-- The one-hot write port with the select of `dr` is the plain register write (30_encoding.md R58). -/
theorem writeSelected_oneHot (dr : RegIdx) (v : Word) (x : Vector Word 8) :
    writeSelected (oneHot dr) v x = x.set dr v := by
  apply Vector.ext
  intro k hk
  have hsel : ∀ d k : Fin 8, (oneHot d).getLsbD k.val = decide (d = k) := by decide
  have h := hsel dr ⟨k, hk⟩
  simp only [writeSelected, Vector.getElem_ofFn, Vector.getElem_set]
  rw [h]
  by_cases e : dr.val = k
  · simp [e, Fin.ext_iff]
  · simp [e, Fin.ext_iff]

/-- With no bit selected the write port writes nothing (10_state.md R20). -/
theorem writeSelected_zero (v : Word) (x : Vector Word 8) : writeSelected 0#8 v x = x := by
  apply Vector.ext
  intro k hk
  simp [writeSelected]

end Sys2Proof.Machine
end

