-- ==== Sys2Proof/Laws/Ops.lean ====
section
/-! SUPPORT. What each shared operation, `exec` and `step` can do, said once. -/
namespace Sys2Proof.Machine

/-- An ALU op with two sources writes the ALU's result to `dr`, and that is all (41_alu.md R100, R101). -/
theorem aluOp_spec (f : AluFn) (d a b : RegIdx) (s : State) :
    aluOp f d a b s = .next (s.setReg d (alu f (s.reg a) (s.reg b))) := rfl

theorem execAdd_spec (d a b : RegIdx) (s : State) : exec (.add d a b) s = .next (s.setReg d (s.reg a + s.reg b)) := rfl
theorem execSub_spec (d a b : RegIdx) (s : State) : exec (.sub d a b) s = .next (s.setReg d (s.reg a - s.reg b)) := rfl
theorem execAnd_spec (d a b : RegIdx) (s : State) : exec (.and d a b) s = .next (s.setReg d (s.reg a &&& s.reg b)) := rfl
theorem execOr_spec (d a b : RegIdx) (s : State) : exec (.or d a b) s = .next (s.setReg d (s.reg a ||| s.reg b)) := rfl
theorem execNot_spec (d a : RegIdx) (s : State) : exec (.not d a) s = .next (s.setReg d (~~~ s.reg a)) := rfl
theorem execHalt_spec (s : State) : exec .halt s = .next (stop s) := rfl

/-- Everything an instruction can do: write one register, or stop. -/
theorem exec_cases (i : Instr) (s : State) :
    (i ≠ .halt ∧ ∃ d v, exec i s = .next (s.setReg d v)) ∨ (i = .halt ∧ exec i s = .next (stop s)) := by
  cases i
  case halt => exact .inr ⟨rfl, rfl⟩
  all_goals exact .inl ⟨by simp, _, _, rfl⟩

/-- Everything a step can do. -/
theorem step_cases (s : State) :
    (s.running = false ∧ step s = .next s) ∨
    (s.running = true ∧ ∃ i, decode (fetchWord s) = .ok i ∧ step s = exec i (beginStep s)) ∨
    (s.running = true ∧ decode (fetchWord s) = .error (.illegalOpcode (opField (fetchWord s))) ∧
      illegalOpcode (opField (fetchWord s)) = true ∧
      step s = .next (takeIllegalOpcode (opField (fetchWord s)) s.pc (beginStep s))) := by
  rcases hr : s.running with _ | _
  · exact .inl ⟨rfl, by simp [step, hr, idleStep]⟩
  · rcases decode_cases (fetchWord s) with ⟨i, hi, -⟩ | ⟨he, hill⟩
    · exact .inr (.inl ⟨rfl, i, hi, by simp [step, hr, decodeFetched, hi]⟩)
    · exact .inr (.inr ⟨rfl, he, hill, by simp [step, hr, decodeFetched, he]⟩)

/-- A step always has a next state: the machine never stops without one. -/
theorem step_total (s : State) : ∃ t, step s = .next t := by
  rcases step_cases s with ⟨-, h⟩ | ⟨-, i, -, h⟩ | ⟨-, -, -, h⟩
  · exact ⟨_, h⟩
  · rcases exec_cases i (beginStep s) with ⟨-, d, v, he⟩ | ⟨-, he⟩
    · exact ⟨_, h.trans he⟩
    · exact ⟨_, h.trans he⟩
  · exact ⟨_, h⟩

/-- No step writes the instruction memory (20_memory.md R33). -/
theorem step_imem {s t : State} (h : step s = .next t) : t.imem = s.imem := by
  rcases step_cases s with ⟨-, h'⟩ | ⟨-, i, -, h'⟩ | ⟨-, -, -, h'⟩
  · rw [h] at h'
    injection h' with e
    rw [e]
  · rcases exec_cases i (beginStep s) with ⟨-, d, v, he⟩ | ⟨-, he⟩ <;>
    · rw [h, he] at h'
      injection h' with e
      rw [e]
      rfl
  · rw [h] at h'
    injection h' with e
    rw [e]
    rfl

/-- The word `step` fetches is the word at the pc. -/
theorem fetchWord_eq_wordAt (s : State) : fetchWord s = s.wordAt s.pc := rfl

/-- A table row's word placed for the next step is the word the next step fetches. -/
theorem fetchWord_withFetchWord {s : State} (h : s.imem.wf) (nbits w : Nat) :
    fetchWord (s.withFetchWord nbits w) = tableWord nbits w := by
  simp [fetchWord, Memory.read_write_same h]

/-- `k + 1` steps are one step and then `k`. -/
theorem stepN_succ {s t : State} (h : step s = .next t) (k : Nat) : stepN (k + 1) s = stepN k t := by
  simp [stepN, h]

/-- `j + k` steps are `j` steps and then `k`. -/
theorem stepN_add {s t : State} {j : Nat} (h : stepN j s = .next t) (k : Nat) : stepN (j + k) s = stepN k t := by
  induction j generalizing s with
  | zero =>
    simp only [stepN] at h
    injection h with e
    simp [e]
  | succ j ih =>
    obtain ⟨u, hu⟩ := step_total s
    rw [stepN_succ hu] at h
    rw [show j + 1 + k = (j + k) + 1 by omega, stepN_succ hu, ih h]

/-- `k` steps always have a next state. -/
theorem stepN_total (k : Nat) (s : State) : ∃ t, stepN k s = .next t := by
  induction k generalizing s with
  | zero => exact ⟨s, rfl⟩
  | succ k ih =>
    obtain ⟨u, hu⟩ := step_total s
    rw [stepN_succ hu]
    exact ih u

/-- The answer to a STEP request. -/
theorem handle_step {s t : State} (h : step s = .next t) : handle .step s = (t, .stepped t.outcome) := by
  simp [handle, settle, h]

end Sys2Proof.Machine
end

