-- ==== Sys2Proof/Laws/PerInstr.lean ====
section
/-! SUPPORT. The per-instruction family `Canonical`: the fields of every instruction are in range, its word has its opcode
class, and the reserved bits 5..3 of its word are 000 (30_encoding.md R55, R56, R59). -/
namespace Sys2Proof.Laws.Canonical

def Statement (i : Instr) : Prop :=
  i.wellFormed = true ∧ opClass (opField (encode i)) = i.cls ∧ (encode i).extractLsb' 3 3 = 0#3

theorem add (d a b : RegIdx) : Statement (.add d a b) := by
  revert d a b; unfold Statement; decide

theorem sub (d a b : RegIdx) : Statement (.sub d a b) := by
  revert d a b; unfold Statement; decide

theorem and (d a b : RegIdx) : Statement (.and d a b) := by
  revert d a b; unfold Statement; decide

theorem or (d a b : RegIdx) : Statement (.or d a b) := by
  revert d a b; unfold Statement; decide

theorem not (d a : RegIdx) : Statement (.not d a) := by
  revert d a; unfold Statement; decide

theorem halt : Statement .halt := by
  unfold Statement; decide

end Sys2Proof.Laws.Canonical
end

