-- ==== Sys2Proof/Laws/Text.lean ====
section
/-! SUPPORT. What the toolchain's readers of characters and lines accept, said once. -/
namespace Sys2Proof.Machine

/-- No two registers have the same digit. -/
theorem regDigit_injective {r q : RegIdx} (h : regDigit r = regDigit q) : r = q := by
  revert r q; decide

/-- A digit names a register exactly when it is that register's digit (30_encoding.md R75). -/
theorem parseDigit_eq_some_iff (c : Char) (r : RegIdx) : parseDigit c = some r ↔ c = regDigit r := by
  constructor
  · intro h
    exact (beq_iff_eq.mp (List.find?_some (p := fun q => regDigit q == c) h)).symm
  · rintro rfl
    revert r; decide

/-- A written hex digit reads as its value (30_encoding.md R80, R82). -/
theorem hexValue_hexDigit (n : Fin 16) : hexValue (hexDigit n) = some n.val := by
  revert n; decide

/-- A newline ends the line before it, and the rest of the text is split alone (log entry 19). -/
theorem textLines_append_newline {l : Text} (h : '\n' ∉ l) (rest : Text) :
    textLines (l ++ '\n' :: rest) = l :: textLines rest := by
  induction l with
  | nil => simp [textLines]
  | cons c l ih =>
    rw [List.mem_cons, not_or] at h
    simp [textLines, Ne.symm h.1, ih h.2, consFirst]

/-- A text that is not empty and has no newline is one line (log entry 19). -/
theorem textLines_of_no_newline {l : Text} (hl : l ≠ []) (h : '\n' ∉ l) : textLines l = [l] := by
  induction l with
  | nil => exact absurd rfl hl
  | cons c l ih =>
    rw [List.mem_cons, not_or] at h
    cases l with
    | nil => simp [textLines, Ne.symm h.1, consFirst]
    | cons d l => rw [textLines, if_neg (Ne.symm h.1), ih (by simp) h.2, consFirst]

end Sys2Proof.Machine
end

