-- ==== Sys2Proof/Tests/Slice0.lean ====
section
/-! SUPPORT. Tests of the model against spec/95_test_vectors.md and the examples of the rules, the smoke tests of the
well-formedness checks, and a witness for the hypotheses of every statement that has some. -/
namespace Sys2Proof.Tests
open Sys2Proof.Machine Sys2Proof.Claims

/-- A booted core: the words from address 0 and the presets, before the first step. -/
def start (words : List Word) (presets : List (RegIdx × Word)) : State := boot words presets State.reset

/-- Whether an outcome is a next state with this property. -/
def nextHas (o : Host.Outcome State Fault Refusal) (p : State → Bool) : Bool :=
  match o with
  | .next t => p t
  | .fault _ => false
  | .refused _ => false

/-! ## Well-formedness: each check refuses an ill-formed quadruple (92_eei_decisions.md D24) -/

theorem test_wf_op : ({ op := 16, dr := 0, sr1 := 0, sr2 := 0 } : Fields).wellFormed = false := by decide
theorem test_wf_dr : ({ op := 5, dr := 8, sr1 := 0, sr2 := 0 } : Fields).wellFormed = false := by decide
theorem test_wf_sr1 : ({ op := 5, dr := 0, sr1 := 8, sr2 := 0 } : Fields).wellFormed = false := by decide
theorem test_wf_sr2 : ({ op := 5, dr := 0, sr1 := 0, sr2 := 8 } : Fields).wellFormed = false := by decide
theorem test_wf_top : ({ op := 15, dr := 7, sr1 := 7, sr2 := 7 } : Fields).wellFormed = true := by decide

/-! ## Decode and encode (95_test_vectors.md L1.1, L2.1; the words bit by bit from 30_encoding.md R53) -/

theorem test_decode_add : decode 0b0101_001_010_000_011#16 = .ok (.add 1 2 3) := by decide
theorem test_decode_sub : decode 0b0001_111_111_000_111#16 = .ok (.sub 7 7 7) := by decide
theorem test_decode_and : decode 0b0100_101_110_000_110#16 = .ok (.and 5 6 6) := by decide
theorem test_decode_or : decode 0b0010_111_111_000_111#16 = .ok (.or 7 7 7) := by decide
theorem test_decode_not : decode 0b0011_100_001_000_000#16 = .ok (.not 4 1) := by decide
theorem test_decode_not_sr2 : decode 0x3847#16 = .ok (.not 4 1) := by decide
theorem test_decode_halt : decode 0b1111_000_000_000_000#16 = .ok .halt := by decide
theorem test_decode_halt_fields : decode 0xFFFF#16 = .ok .halt := by decide
theorem test_decode_reserved_bits : decode 0x5288#16 = .ok (.add 1 2 0) := by decide
theorem test_decode_illegal : decode 0x7ABC#16 = .error (.illegalOpcode 7#4) := by decide
theorem test_encode_not : encode (.not 4 1) = 0x3840#16 := by decide
theorem test_encode_emission : encode (.add 1 2 0) = 0x5280#16 := by decide
theorem test_table_word : decodeTableWord 16 0x5283 = some (.add 1 2 3) := by decide
theorem test_table_word_illegal : decodeTableWord 16 0x0000 = none := by decide

/-! ## One step of each instruction (L2.2 to L2.7) -/

theorem test_add_wraps : nextHas (step (start [0x5283#16] [(2, 0xFFFF#16), (3, 0xFFFF#16)]))
    (fun t => t.reg 1 = 0xFFFE#16 && t.pc = 0x0001#16 && t.phase = .running) = true := by decide
theorem test_add_in_place : nextHas (step (start [0x5241#16] [(1, 0x0003#16)])) (fun t => t.reg 1 = 0x0006#16) = true := by
  decide
theorem test_sub_borrows : nextHas (step (start [0x1283#16] [(2, 0x0003#16), (3, 0x0005#16)]))
    (fun t => t.reg 1 = 0xFFFE#16 && t.reg 2 = 0x0003#16) = true := by decide
theorem test_sub_self : nextHas (step (start [0x1904#16] [(4, 0xBEEF#16)])) (fun t => t.reg 4 = 0x0000#16) = true := by decide
theorem test_and_bits : nextHas (step (start [0x4283#16] [(2, 0xF0F0#16), (3, 0x3C3C#16)]))
    (fun t => t.reg 1 = 0x3030#16) = true := by decide
theorem test_or_merge : nextHas (step (start [0x2283#16] [(2, 0x1200#16), (3, 0x0034#16)]))
    (fun t => t.reg 1 = 0x1234#16) = true := by decide
theorem test_not_bits : nextHas (step (start [0x3840#16] [(1, 0x1234#16)])) (fun t => t.reg 4 = 0xEDCB#16) = true := by decide
theorem test_not_sr2_ignored : nextHas (step (start [0x3845#16] [(1, 0x0F0F#16), (5, 0x1111#16)]))
    (fun t => t.reg 4 = 0xF0F0#16 && t.reg 5 = 0x1111#16) = true := by decide
theorem test_halt : nextHas (step (start [0xFFFF#16] []))
    (fun t => t.status = .halted && t.running = false && t.pc = 0x0001#16 && t.fault = false) = true := by decide
theorem test_illegal : nextHas (step (start [0x8123#16] [])) (fun t => t.status = .faulted && t.faultOpcode = 0x8#4 &&
    t.faultAddr = 0x0000#16 && t.pc = 0x0001#16 && t.running = false) = true := by decide

/-! ## Runs and requests (L1.6, L2.9, L2.10, P4) -/

/-- P1 with its presets: R1 = 8, R4 = 0xFFF7, three steps. -/
theorem test_run_example : nextHas (stepN 3 (start [0x5283#16, 0x3840#16, 0xF000#16] [(2, 0x0003#16), (3, 0x0005#16)]))
    (fun t => t.reg 1 = 0x0008#16 && t.reg 4 = 0xFFF7#16 && t.pc = 0x0003#16 && t.status = .halted) = true := by decide

/-- A STEP after a stop changes nothing (L2.9). -/
theorem test_step_after_halt : nextHas (step (start [0xF000#16] [])) (fun t => decide (handle .step t = (t, .stepped .halted)))
    = true := by decide

/-- A LOAD after the first step is refused (L2.10). -/
theorem test_load_refused : nextHas (step (start [0x5283#16] []))
    (fun t => decide (handle (.load [0xF000#16]) t = (t, .refused .loadNotReady))) = true := by decide

/-- RUN right after reset faults at address 0 (L2.9). -/
theorem test_run_after_reset : (match runFuel 1 State.reset with
    | .next (.ended o t) => o = .faulted && t.pc = 0x0001#16 && t.faultAddr = 0x0000#16
    | .next (.outOfFuel _) => false
    | .fault _ => false
    | .refused _ => false) = true := by decide

/-- An instruction placed by `withFetchWord` runs as the first instruction after reset. -/
theorem test_with_fetch_word : nextHas (step (State.reset.withFetchWord 16 0x3840)) (fun t => t.reg 4 = 0xFFFF#16) = true := by
  decide

/-! ## The toolchain (L1.3, L1.5, L2.8) -/

theorem test_line_plain : parseLine "ADD R1 R2 R3   ; comment".toList = .ok (some (.add 1 2 3)) := by decide
theorem test_line_leading_comma : parseLine ",ADD,r1\tR2 R3,".toList = .ok (some (.add 1 2 3)) := by decide
theorem test_line_only_commas : parseLine ", ,".toList = .ok none := by decide
theorem test_line_case : parseLine "add R1 R2 R3".toList = .error (.unknownMnemonic, "add".toList) := by decide
theorem test_line_arity : parseLine "NOT R4 R1 R0".toList = .error (.wrongOperandCount, "NOT".toList) := by decide
theorem test_line_register : parseLine "SUB R0 R0 R08".toList = .error (.badRegister, "R08".toList) := by decide

/-- F1: skipped lines give no word. -/
theorem test_file_skips : (assemble .discardRest ["; header".toList, [], "ADD R1 R2 R3".toList, "HALT".toList]).toOption =
    some [0x5283#16, 0xF000#16] := by decide

/-- F2: the line number counts skipped lines. -/
theorem test_file_fails : assembleLine .error 4 "bad R1".toList =
    .error { line := 4, cause := .unknownMnemonic, token := "bad".toList } := by decide

/-- A carriage return stays in its line, as whitespace; a final newline opens no line (log entry 19). -/
theorem test_lines_crlf : textLines "NOT R4 R1\r\nHALT\n".toList = ["NOT R4 R1\r".toList, "HALT".toList] ∧
    parseLine "NOT R4 R1\r".toList = .ok (some (.not 4 1)) := by decide

/-- NOT takes two operands and not one (R74, against the last line of R83's grammar; log entry 18). -/
theorem test_not_one_operand : parseLine "NOT R4".toList = .error (.wrongOperandCount, "NOT".toList) := by decide

theorem test_hex4 : hex4 0x5280#16 = "5280".toList := by decide
theorem test_hex_lenient : readHex .lenientZero .refuse ["F000".toList, "xyz".toList] = some [0xF000#16, 0x0000#16] := by decide
theorem test_hex_error : readHex .error .refuse ["xyz".toList] = none := by decide
theorem test_hex_wide : readHexLine .lenientZero .refuse "12345".toList = none ∧
    readHexLine .lenientZero .reduce "12345".toList = some 0x2345#16 := by decide
theorem test_render : renderReg (State.reset.setReg 3 0x00FF#16).x 3 = "R3: 0x00FF".toList := by decide

/-! ## Witnesses: a state and operands that meet the hypotheses of each statement, at the ends of their ranges -/

/-- A booted core is live, with no fault latched and a canonical memory. -/
theorem start_live (words : List Word) (presets : List (RegIdx × Word)) (h : (start words presets).running = true)
    (h' : (start words presets).phase = .ready) : (start words presets).Live := ⟨h, by rw [h']; decide⟩

/-- For OpcodeMapIsComplete, StepIsThePseudocode and StepOutcomes: a word for each clause, the first and last of each. -/
theorem witness_opcode_clauses :
    opOf 0x1000#16 = 1 ∧ opOf 0x2FFF#16 = 2 ∧ opOf 0x3000#16 = 3 ∧ opOf 0x4FFF#16 = 4 ∧ opOf 0x5000#16 = 5 ∧
    opOf 0xF000#16 = 15 ∧ opOf 0xFFFF#16 = 15 ∧ IllegalWord 0x0FFF#16 ∧ IllegalWord 0x6000#16 ∧ IllegalWord 0xEFFF#16 ∧
    AluWord 0x1000#16 ∧ AluWord 0x5FFF#16 ∧ ¬ IllegalWord 0x5FFF#16 ∧ ¬ IllegalWord 0xF000#16 ∧ ¬ AluWord 0x6000#16 := by
  decide

/-- For EncodeInvertsExtraction: the largest and the smallest quadruple. -/
theorem witness_encode_ranges : encodeFields { op := 15, dr := 7, sr1 := 7, sr2 := 7 } = some 0xFFC7#16 ∧
    encodeFields { op := 0, dr := 0, sr1 := 0, sr2 := 0 } = some 0x0000#16 := by decide

/-- For IgnoredBitsHaveNoEffect: each of its three forms. -/
theorem witness_ignored_bits : State.reset.running = true ∧ State.reset.imem.wf ∧
    (0x5280#16 : Word) = 0x52B8#16 &&& 0xFFC7#16 ∧
    (opOf 0x387F#16 = 3 ∧ (0x3840#16 : Word) = 0x387F#16 &&& 0xFFC0#16) ∧ opOf 0xFFFF#16 = 15 :=
  ⟨rfl, State.reset_imem_wf, by decide, by decide, by decide⟩

/-- For the words of AddWritesSum, SubWritesDifference, AndWritesConjunction, OrWritesDisjunction, NotWritesComplement and
HaltStopsTheCore. -/
theorem witness_match_and_mask : (0x5FFF#16 &&& 0xF000#16 : Word) = BitVec.ofNat 16 (5 * 4096) ∧
    (0x1283#16 &&& 0xF000#16 : Word) = BitVec.ofNat 16 (1 * 4096) ∧
    (0x4000#16 &&& 0xF000#16 : Word) = BitVec.ofNat 16 (4 * 4096) ∧
    (0x2FFF#16 &&& 0xF000#16 : Word) = BitVec.ofNat 16 (2 * 4096) ∧
    (0x3FFF#16 &&& 0xF000#16 : Word) = 0x3000#16 ∧ (0xFFFF#16 &&& 0xF000#16 : Word) = 0xF000#16 := by decide

/-- For HaltStopsTheCore and StepOutcomes: a live core at a HALT. -/
theorem witness_halt : (start [0xF1FF#16] []).Live ∧ (start [0xF1FF#16] []).fault = false ∧
    opOf ((start [0xF1FF#16] []).wordAt (start [0xF1FF#16] []).pc) = 15 :=
  ⟨start_live _ _ (by decide) (by decide), by decide, by decide⟩

/-- For AluStepTouchesOneRegister, PcOnlyCountsUp and PhaseAndRunningMoves: a live core at an ALU op, and live after it. -/
theorem witness_alu : (start [0x5283#16] []).Live ∧ AluWord ((start [0x5283#16] []).wordAt (start [0x5283#16] []).pc) ∧
    nextHas (stepN 1 (start [0x5283#16] [])) (fun t => t.running && decide (t.phase ≠ .halted)) = true :=
  ⟨start_live _ _ (by decide) (by decide), by decide, by decide⟩

/-- For NegationTwoWays. -/
theorem witness_negation : (State.reset.setReg 2 1#16).reg 2 = 1#16 ∧ (State.reset.setReg 2 1#16).reg 0 = 0#16 ∧
    (2 : RegIdx) ≠ 1 := by decide

/-- For StepRunsDecodedInstruction. -/
theorem witness_step_decodes : (start [0x3840#16] []).running = true ∧
    decode ((start [0x3840#16] []).wordAt (start [0x3840#16] []).pc) = .ok (.not 4 1) := by decide

/-- For ResultIsReadyForTheNextStep: ADD R1 R2 R3, then SUB R4 R5 R1, which reads the result through SR2 alone; and
NOT R7 R0, then OR R7 R7 R7, which reads it through both and writes the same register. -/
theorem witness_dependent_words :
    (start [0x5283#16, 0x1941#16] []).Live ∧ AluWord ((start [0x5283#16, 0x1941#16] []).wordAt 0#16) ∧
    AluWord ((start [0x5283#16, 0x1941#16] []).wordAt (0#16 + 1#16)) ∧ sr2Of 0x1941#16 = drOf 0x5283#16 ∧
    sr1Of 0x1941#16 ≠ drOf 0x5283#16 ∧ (start [0x3E00#16, 0x2FC7#16] []).Live ∧
    AluWord ((start [0x3E00#16, 0x2FC7#16] []).wordAt 0#16) ∧
    AluWord ((start [0x3E00#16, 0x2FC7#16] []).wordAt (0#16 + 1#16)) :=
  ⟨start_live _ _ (by decide) (by decide), by decide, by decide, by decide, by decide,
    start_live _ _ (by decide) (by decide), by decide, by decide⟩

/-- For IllegalOpcodeIsLatched, OnlyIllegalOpcodesFault and FaultingWordCanBeReadBack: a live core at an illegal word, whose
step latches the fault. -/
theorem witness_illegal : (start [0xE000#16] []).Live ∧ (start [0xE000#16] []).fault = false ∧
    IllegalWord ((start [0xE000#16] []).wordAt (start [0xE000#16] []).pc) ∧
    nextHas (step (start [0xE000#16] [])) (fun t => t.fault) = true :=
  ⟨start_live _ _ (by decide) (by decide), by decide, by decide, by decide⟩

/-- A core at the top of memory: an ALU op at 0xFFFF and a HALT at 0, so that the pc wraps. -/
def atTop : State := { State.reset with imem := [(0, 0xF000#16), (65535, 0x4000#16)], pc := 0xFFFF#16, phase := .running }

/-- For RunStopsAtFirstStoppingWord, RunEndsNormallyExactlyAtAHalt and RunIsBounded: a stop after a wrap (n = 1), and at once
(n = 0). -/
theorem witness_run_stops : atTop.Live ∧ atTop.fault = false ∧
    (∀ j < 1, AluWord (atTop.wordAt (atTop.pc + BitVec.ofNat 16 j))) ∧
    ¬ AluWord (atTop.wordAt (atTop.pc + BitVec.ofNat 16 1)) ∧ opOf (atTop.wordAt (atTop.pc + BitVec.ofNat 16 1)) = 15 ∧
    State.reset.Live ∧ IllegalWord (State.reset.wordAt (State.reset.pc + BitVec.ofNat 16 0)) :=
  ⟨⟨rfl, by decide⟩, rfl, by decide, by decide, by decide, ⟨rfl, by decide⟩, by decide⟩

/-- All 65536 words `AND R0 R0 R0` (L2.9). -/
def allAnd : State := { State.reset with imem := (List.range' 0 65536).map fun i => (i, 0x4000#16) }

/-- For RunWithoutStoppingWordNeverEnds. -/
theorem witness_never_ends : allAnd.Live ∧ ∀ a : Addr, AluWord (allAnd.wordAt a) := by
  refine ⟨⟨rfl, by simp [allAnd, State.reset]⟩, fun a => ?_⟩
  have h : allAnd.wordAt a = 0x4000#16 := Memory.read_fill _ 65536 0 a.toNat (Nat.zero_le _) (by have := a.isLt; omega)
  rw [h]
  decide

/-- For LoadWritesWordsFromZero: phase Ready, an empty and a full LOAD. -/
theorem witness_load : State.reset.imem.wf ∧ State.reset.phase = .ready ∧ ([] : List Word).length ≤ 65536 ∧
    (List.replicate 65536 0x4000#16).length ≤ 65536 :=
  ⟨State.reset_imem_wf, rfl, Nat.zero_le _, Nat.le_of_eq List.length_replicate⟩

/-- For LoadIsRefusedWhole: one word too many, and the wrong phase. -/
theorem witness_load_refused : 65536 < (List.replicate 65537 0x4000#16).length ∧ atTop.phase ≠ .ready :=
  ⟨by rw [List.length_replicate]; decide, by decide⟩

/-- For PresetWritesOneRegister and HostKeepsToItsLimits: a state in each phase class, and a request that is no RESET, STEP or
LOAD. -/
theorem witness_host : State.reset.phase = .ready ∧ atTop.phase ≠ .ready ∧ Request.readout ≠ .reset ∧
    Request.readout ≠ .step ∧ ∀ words, Request.readout ≠ .load words := by simp [State.reset, atTop]

/-- A core that faulted at address 0. -/
def faulted : State := takeIllegalOpcode 0x0#4 0x0000#16 (beginStep State.reset)

/-- For the status clauses of StepOutcomes: a state in each phase, Halted both without and with a fault. -/
theorem witness_status : State.reset.phase = .ready ∧ atTop.phase = .running ∧
    ((stop State.reset).phase = .halted ∧ (stop State.reset).fault = false) ∧
    (faulted.phase = .halted ∧ faulted.fault = true) := by decide

/-- For ControlDoesNotDependOnRegisters: two memories that differ in the twelve low bits of the words, with the same opcode
at every address. -/
theorem witness_same_opcodes : (start [0x5283#16] []).imem ≠ [(0, 0x5FFF#16), (65535, 0x0ABC#16)] ∧
    ∀ a : Addr, opOf (Memory.read [(0, 0x5FFF#16), (65535, 0x0ABC#16)] a.toNat) = opOf ((start [0x5283#16] []).wordAt a) := by
  refine ⟨by decide, fun a => ?_⟩
  have hm : (start [0x5283#16] []).imem = [(0, 0x5283#16)] := by decide
  rw [State.wordAt, hm]
  simp only [Memory.read]
  split_ifs <;> decide

/-- For HaltedIsTerminal and PhaseAndRunningMoves, with a request sequence that has no RESET. -/
theorem witness_halted : faulted.running = false ∧ faulted.phase = .halted ∧
    Request.reset ∉ [Request.step, .load [], .preset 7 0xFFFF#16, .readout] := by decide

/-- The invariant holds in a faulted core, with every one of its clauses about a fault in force. For StepKeepsTheInvariant,
EveryReachableStateMeetsTheInvariant and PhaseAndRunningMoves. -/
theorem witness_invariant : faulted.Inv ∧ nextHas (step faulted) (fun t => decide (t = faulted)) = true :=
  ⟨⟨State.reset_imem_wf, by decide, by decide, by decide, by decide, by decide, by decide⟩, by decide⟩

/-- The invariant holds in a running core, which steps on to a HALT. -/
theorem witness_invariant_running : atTop.Inv ∧ nextHas (stepN 2 atTop) (fun t => t.status = .halted) = true :=
  ⟨⟨by decide, by decide, by decide, by decide, by decide, by decide, by decide⟩, by decide⟩

/-- For BootPutsTheProgramInPlace. -/
theorem witness_boot : [0x5283#16, 0xF000#16].length ≤ 65536 ∧
    (([(2, 0x0003#16), (3, 0x0005#16)] : List (RegIdx × Word)).map Prod.fst).Nodup := by decide

/-- For UnknownNamesAndCountsAreRejected: a name and an operand list for each clause. -/
theorem witness_rejected : "ADDR1".toList ∉ [['A', 'D', 'D'], ['S', 'U', 'B'], ['A', 'N', 'D'], ['O', 'R'], ['N', 'O', 'T'],
      ['H', 'A', 'L', 'T']] ∧ ["R1".toList, "R2".toList].length ≠ 3 ∧ ["R1".toList].length ≠ 2 ∧ ["R1".toList].length ≠ 0 := by
  decide

/-- For AssemblyIsFailFast, AssembledWordsAreCanonical and FlowLoadsTheAssembledWords: L1.8's file, whose first line is valid
and whose second is not. -/
theorem witness_fail_fast : (assemble .error ["ADD R1 R2 R3".toList]).toOption = some [0x5283#16] ∧
    assembleLine .error 2 "ADD R1 R2".toList = .error { line := 2, cause := .wrongOperandCount, token := "ADD".toList } ∧
    (assemble .error (textLines "HALT\n".toList)).toOption = some [0xF000#16] ∧
    (assemble .error (textLines "ADD R1 R2 R3\nADD R1 R2".toList)).toOption = none := by decide

/-- A source of `n` HALT lines. -/
def halts (n : Nat) : Text := (List.replicate n "HALT\n".toList).flatten

/-- Its lines. -/
theorem textLines_halts (n : Nat) : textLines (halts n) = List.replicate n "HALT".toList := by
  induction n with
  | zero => rfl
  | succ n ih =>
    have h : halts (n + 1) = "HALT\n".toList ++ halts n := by simp [halts, List.replicate_succ]
    rw [h, List.replicate_succ, ← ih]
    exact textLines_append_newline (l := "HALT".toList) (by decide) _

/-- Its words. -/
theorem assemble_halts (n : Nat) : assemble .error (textLines (halts n)) = .ok (List.replicate n 0xF000#16) := by
  have hl : ∀ k, assembleLine .error k "HALT".toList = .ok [0xF000#16] := fun _ => rfl
  rw [textLines_halts, assemble]
  generalize 1 = k
  induction n generalizing k with
  | zero => rfl
  | succ n ih =>
    rw [List.replicate_succ, assembleFrom, hl]
    simp only [ih]
    rfl

/-- For FlowLoadsTheAssembledWords: sources whose words just fit, and just do not. -/
theorem witness_flow_bounds : assemble .error (textLines (halts 65536)) = .ok (List.replicate 65536 0xF000#16) ∧
    (List.replicate 65536 0xF000#16).length ≤ 65536 ∧
    assemble .error (textLines (halts 65537)) = .ok (List.replicate 65537 0xF000#16) ∧
    65536 < (List.replicate 65537 0xF000#16).length :=
  ⟨assemble_halts _, Nat.le_of_eq List.length_replicate, assemble_halts _, by rw [List.length_replicate]; decide⟩

end Sys2Proof.Tests
end

section
/-! Proofs of the family 10_state.md. First what a step does at each kind of word and what each request can do, then the
moves of `phase` and `running` (R23, R26). -/
namespace Sys2Proof.Machine
open Sys2Proof.Claims

/-! ## The word a step meets -/

/-- The opcode field as a number: bits 15..12 (30_encoding.md R54). -/
theorem opField_toNat (w : Word) : (opField w).toNat = opOf w := by
  have := w.isLt
  simp only [opField, opOf, BitVec.extractLsb'_toNat, Nat.shiftRight_eq_div_pow]
  omega

/-- The ALU opcodes are those of the five ALU classes (30_encoding.md R57). -/
theorem aluOpcode_iff (op : Opcode) :
    1 ≤ op.toNat ∧ op.toNat ≤ 5 ↔ opClass op ≠ .halt ∧ opClass op ≠ .illegal := by
  revert op; decide

/-- A word is an ALU word when its class is neither HALT nor ILLEGAL. -/
theorem aluWord_iff (w : Word) : AluWord w ↔ opClass (opField w) ≠ .halt ∧ opClass (opField w) ≠ .illegal := by
  rw [← aluOpcode_iff, opField_toNat]

/-- The words that decode to an instruction other than HALT are the ALU words. -/
theorem aluWord_iff_ne_halt {w : Word} {i : Instr} (h : decode w = .ok i) : AluWord w ↔ i ≠ .halt := by
  rw [aluWord_iff, opClass_of_decode_ok h]
  cases i <;> simp [Instr.cls]

/-- A word with an illegal opcode is no ALU word. -/
theorem not_aluWord_of_illegal {w : Word} (h : illegalOpcode (opField w) = true) : ¬ AluWord w := by
  rw [aluWord_iff]
  exact fun hne => hne.2 (of_decide_eq_true h)

/-- A step at an ALU word begins and writes one register. -/
theorem step_of_aluWord {s : State} (hr : s.running = true) (hw : AluWord (s.wordAt s.pc)) :
    ∃ d v, step s = .next ((beginStep s).setReg d v) := by
  rcases step_cases s with ⟨hf, -⟩ | ⟨-, i, hd, hs⟩ | ⟨-, -, hill, -⟩
  · simp [hr] at hf
  · rcases exec_cases i (beginStep s) with ⟨-, d, v, he⟩ | ⟨hi, -⟩
    · exact ⟨d, v, hs.trans he⟩
    · exact absurd hi ((aluWord_iff_ne_halt hd).mp hw)
  · exact absurd hw (not_aluWord_of_illegal hill)

/-- A step at any other word begins and stops the core, by a HALT or by taking the exception. -/
theorem step_of_not_aluWord {s : State} (hr : s.running = true) (hw : ¬ AluWord (s.wordAt s.pc)) :
    step s = .next (stop (beginStep s)) ∨
      step s = .next (takeIllegalOpcode (opField (fetchWord s)) s.pc (beginStep s)) := by
  rcases step_cases s with ⟨hf, -⟩ | ⟨-, i, hd, hs⟩ | ⟨-, -, -, hs⟩
  · simp [hr] at hf
  · rcases exec_cases i (beginStep s) with ⟨hi, -⟩ | ⟨-, he⟩
    · exact absurd ((aluWord_iff_ne_halt hd).mpr hi) hw
    · exact .inl (hs.trans he)
  · exact .inr hs

/-- A step while `running` is false changes nothing (40_sequencer.md R95). -/
theorem step_of_not_running {s : State} (h : s.running = false) : step s = .next s := by
  simp [step, h, idleStep]

/-! ## What a request can do -/

/-- Everything LOAD can do to the state (20_memory.md R41 to R44). -/
theorem handle_load_cases (words : List Word) (s : State) :
    (handle (.load words) s).1 = s ∨
      (handle (.load words) s).1 = { s with imem := s.imem.loadFrom 0 words, pc := 0x0000#16 } := by
  simp only [handle, loadWords]
  split_ifs
  · exact .inl rfl
  · exact .inl rfl
  · exact .inr rfl

/-- Everything PRESET can do to the state (70_reset_and_hazards.md R140). -/
theorem handle_preset_cases (i : RegIdx) (v : Word) (s : State) :
    (handle (.preset i v) s).1 = s ∨ (handle (.preset i v) s).1 = s.setReg i v := by
  simp only [handle, presetReg]
  split_ifs
  · exact .inr rfl
  · exact .inl rfl

/-! ## The moves of `phase` and `running` -/

/-- The status shows phase Ready (10_state.md R27). -/
theorem State.status_eq_ready_iff (s : State) : s.status = .ready ↔ s.phase = .ready := by
  unfold State.status
  cases s.phase <;> cases s.fault <;> simp

/-- The status shows phase Running (10_state.md R27). -/
theorem State.status_eq_running_iff (s : State) : s.status = .running ↔ s.phase = .running := by
  unfold State.status
  cases s.phase <;> cases s.fault <;> simp

/-- A begun step of a core that is not halted is in phase Running. -/
theorem beginStep_phase_of_not_halted {s : State} (h : s.phase ≠ .halted) : (beginStep s).phase = .running := by
  rw [beginStep_phase]
  cases hp : s.phase <;> simp_all

/-- The first step moves Ready to Running before it executes (10_state.md R26), so it is the step taken in Running. -/
theorem step_of_ready {s : State} (hr : s.running = true) (h : s.phase = .ready) :
    step s = step { s with phase := .running } := by
  have hb : beginStep { s with phase := .running } = beginStep s := by simp [beginStep, h]
  have hd : decodeFetched { s with phase := .running } = decodeFetched s := rfl
  simp only [step, if_pos hr, hb, hd]

/-- A live core stays in phase Running at an ALU word and is halted by any other (10_state.md R23, R26). -/
theorem step_of_live {s : State} (hl : s.Live) : ∃ t, step s = .next t ∧
    (AluWord (s.wordAt s.pc) → t.phase = .running ∧ t.running = true) ∧
    (¬ AluWord (s.wordAt s.pc) → t.phase = .halted ∧ t.running = false) := by
  by_cases hw : AluWord (s.wordAt s.pc)
  · obtain ⟨d, v, hs⟩ := step_of_aluWord hl.running hw
    exact ⟨_, hs, fun _ => ⟨beginStep_phase_of_not_halted hl.phase, hl.running⟩, fun h => absurd hw h⟩
  · rcases step_of_not_aluWord hl.running hw with hs | hs
    · exact ⟨_, hs, fun h => absurd h hw, fun _ => ⟨rfl, rfl⟩⟩
    · exact ⟨_, hs, fun h => absurd h hw, fun _ => ⟨rfl, rfl⟩⟩

/-- A request other than RESET and STEP moves neither `phase` nor `running`, accepted or refused. -/
theorem handle_keeps_phase_running (s : State) {q : Request} (hreset : q ≠ .reset) (hstep : q ≠ .step) :
    (handle q s).1.phase = s.phase ∧ (handle q s).1.running = s.running := by
  cases q with
  | reset => exact absurd rfl hreset
  | step => exact absurd rfl hstep
  | load words => rcases handle_load_cases words s with h | h <;> simp [h]
  | preset i v => rcases handle_preset_cases i v s with h | h <;> simp [h]
  | readout => exact ⟨rfl, rfl⟩

/-- Under the invariant a core in phase Halted is not running (10_state.md R23). -/
theorem State.Inv.not_running_of_halted {s : State} (hi : s.Inv) (h : s.phase = .halted) : s.running = false :=
  Bool.eq_false_iff.mpr fun hr => hi.running_iff.mp hr h

/-- Only RESET leaves phase Halted (10_state.md R26). -/
theorem handle_keeps_halted {s : State} {q : Request} (hreset : q ≠ .reset) (hi : s.Inv) (h : s.phase = .halted) :
    (handle q s).1.phase = .halted := by
  by_cases hq : q = .step
  · rw [hq, handle_step (step_of_not_running (hi.not_running_of_halted h))]
    exact h
  · exact (handle_keeps_phase_running s hreset hq).1.trans h

/-- No instruction's registers, pc or memory depend on the phase (10_state.md R26). -/
theorem exec_phase_irrelevant (i : Instr) (s : State) (p : Phase) :
    ∃ t u, exec i s = .next t ∧ exec i { s with phase := p } = .next u ∧
      u.x = t.x ∧ u.pc = t.pc ∧ u.imem = t.imem := by
  cases i <;> exact ⟨_, _, rfl, rfl, rfl, rfl, rfl⟩

/-- Settles O38: each move of `phase` and `running`, from what a step and a request can do. -/
theorem phaseAndRunningMoves : Obligations.PhaseAndRunningMoves := by
  refine ⟨fun _ => ⟨rfl, rfl⟩, fun s => step_of_ready, fun s => step_of_live,
    fun s _ => handle_keeps_phase_running s, fun s => step_of_not_running, fun s _ => handle_keeps_halted,
    exec_phase_irrelevant, fun s => ?readout, fun s hi => ⟨?active, hi.not_running_of_halted⟩⟩
  case readout => exact ⟨s.readout, rfl, s.status_eq_ready_iff, s.status_eq_running_iff⟩
  case active =>
    rintro (h | h) <;>
    · rw [hi.running_iff, h]
      decide

end Sys2Proof.Machine
end

section
/-! Proofs of the family 20_memory.md. First what an instruction computes from, and LOAD's answer in each case; then that no
instruction uses the memory (R33) and what LOAD writes and refuses (R41 to R44). -/
namespace Sys2Proof.Machine

/-! ## What an instruction reads -/

/-- An instruction does one thing in all states: it writes a register with a value computed from the registers alone, or it
stops. Unlike `exec_cases`, the register and the function do not depend on the state. -/
theorem exec_reads_only_registers (i : Instr) :
    (∃ (d : RegIdx) (f : (RegIdx → Word) → Word), ∀ s, exec i s = .next (s.setReg d (f s.reg))) ∨
      ∀ s, exec i s = .next (stop s) := by
  cases i with
  | add d a b => exact .inl ⟨d, fun x => x a + x b, execAdd_spec d a b⟩
  | sub d a b => exact .inl ⟨d, fun x => x a - x b, execSub_spec d a b⟩
  | and d a b => exact .inl ⟨d, fun x => x a &&& x b, execAnd_spec d a b⟩
  | or d a b => exact .inl ⟨d, fun x => x a ||| x b, execOr_spec d a b⟩
  | not d a => exact .inl ⟨d, fun x => ~~~ x a, execNot_spec d a⟩
  | halt => exact .inr execHalt_spec

/-- Settles O21: neither a write of a value computed from the registers nor a stop meets the memory. -/
theorem noInstructionUsesMemory : Obligations.NoInstructionUsesMemory := by
  intro i s m
  rcases exec_reads_only_registers i with ⟨d, f, hexec⟩ | hexec
  · exact ⟨_, hexec s, s.setReg_imem d _, hexec { s with imem := m }⟩
  · exact ⟨_, hexec s, stop_imem s, hexec { s with imem := m }⟩

/-! ## LOAD's answers -/

/-- LOAD in phase Ready with words that fit is accepted (20_memory.md R41, R44). -/
theorem handle_load_accepted {s : State} {words : List Word} (hready : s.phase = .ready)
    (hlen : words.length ≤ Config.imemWords) :
    handle (.load words) s = ({ s with imem := s.imem.loadFrom 0 words, pc := 0x0000#16 }, .done) := by
  simp [handle, loadWords, settle, hready, Nat.not_lt.mpr hlen]

/-- LOAD outside phase Ready is refused (20_memory.md R42). -/
theorem handle_load_notReady {s : State} (words : List Word) (hready : s.phase ≠ .ready) :
    handle (.load words) s = (s, .refused .loadNotReady) := by
  simp [handle, loadWords, settle, hready]

/-- LOAD of more words than the memory holds is refused (20_memory.md R43). -/
theorem handle_load_tooLong {s : State} {words : List Word} (hready : s.phase = .ready)
    (hlen : Config.imemWords < words.length) :
    handle (.load words) s = (s, .refused .loadTooLong) := by
  simp [handle, loadWords, settle, hready, hlen]

/-! ## What LOAD leaves in the memory -/

/-- After LOAD's loop from address 0, word `i` stands at address `i` (20_memory.md R41). -/
theorem Memory.read_loadFrom_zero_of_lt {m : Memory} (h : m.wf) {ws : List Word} (hlen : ws.length ≤ Config.imemWords)
    {i : Nat} (hi : i < ws.length) : (m.loadFrom 0 ws).read i = ws[i] := by
  simp [Memory.read_loadFrom h 0 ws (by omega), hi]

/-- LOAD's loop from address 0 writes no address from the number of words on (20_memory.md R41). -/
theorem Memory.read_loadFrom_zero_of_le {m : Memory} (h : m.wf) {ws : List Word} (hlen : ws.length ≤ Config.imemWords)
    {a : Nat} (ha : ws.length ≤ a) : (m.loadFrom 0 ws).read a = m.read a := by
  simp [Memory.read_loadFrom h 0 ws (by omega), ha]

/-- Settles O33: the state of an accepted LOAD, read by the laws of LOAD's loop. -/
theorem loadWritesWordsFromZero : Obligations.LoadWritesWordsFromZero := by
  intro s words hwf hready hlen
  have hwf' : (s.imem.loadFrom 0 words).wf := Memory.wf_loadFrom hwf 0 words (by rwa [Nat.zero_add])
  exact ⟨_, handle_load_accepted hready hlen, hwf', fun i hi => Memory.read_loadFrom_zero_of_lt hwf hlen hi,
    fun a ha => Memory.read_loadFrom_zero_of_le hwf hlen ha, rfl, rfl, rfl, rfl, rfl, rfl, rfl⟩

/-- Settles O34: by the phase; in phase Ready the length is the only ground left. -/
theorem loadIsRefusedWhole : Obligations.LoadIsRefusedWhole := by
  intro s words hground
  by_cases hready : s.phase = .ready
  · have hlong : Config.imemWords < words.length := hground.resolve_left (not_not_intro hready)
    exact ⟨_, handle_load_tooLong hready hlong⟩
  · exact ⟨_, handle_load_notReady words hready⟩

end Sys2Proof.Machine
end

section
/-! Proofs of the family 30_encoding.md. First the fields of a word as numbers (R54) and the class of a word by its opcode
(R57, R61), then the word of a quadruple as a number (R56). -/
namespace Sys2Proof.Machine
open Sys2Proof.Claims

/-! ## The fields of a word -/

/-- The DR field as a number: bits 11..9 (30_encoding.md R54). -/
theorem drField_eq_drOf (w : Word) : drField w = drOf w := by
  ext
  simp [drField, drOf, Nat.shiftRight_eq_div_pow]

/-- The SR1 field as a number: bits 8..6 (30_encoding.md R54). -/
theorem sr1Field_eq_sr1Of (w : Word) : sr1Field w = sr1Of w := by
  ext
  simp [sr1Field, sr1Of, Nat.shiftRight_eq_div_pow]

/-- The SR2 field as a number: bits 2..0 (30_encoding.md R54). -/
theorem sr2Field_eq_sr2Of (w : Word) : sr2Field w = sr2Of w := by
  ext
  simp [sr2Field, sr2Of]

/-- Settles O1: field by field. -/
theorem fieldsOfEveryWord : Obligations.FieldsOfEveryWord := by
  intro w
  rw [fieldsOf, opField_toNat, drField_eq_drOf, sr1Field_eq_sr1Of, sr2Field_eq_sr2Of]
  rfl

/-! ## The class of a word -/

/-- The opcode field is the 4-bit form of bits 15..12 (30_encoding.md R54). -/
theorem opField_eq_ofNat (w : Word) : opField w = BitVec.ofNat 4 (opOf w) := by
  rw [← opField_toNat, BitVec.ofNat_toNat, BitVec.setWidth_eq]

/-- The class of a word with opcode `op` (30_encoding.md R57). -/
theorem opClass_opField_of_opOf {w : Word} {op : Nat} (h : opOf w = op) :
    opClass (opField w) = opClass (BitVec.ofNat 4 op) := by
  rw [opField_eq_ofNat, h]

/-- The words with an illegal opcode are those of class ILLEGAL (30_encoding.md R63). -/
theorem illegalWord_iff (w : Word) : IllegalWord w ↔ opClass (opField w) = .illegal := by
  have hiff := illegalOpcode_iff (opField w)
  rw [opField_toNat, illegalOpcode, decide_eq_true_iff] at hiff
  exact hiff.symm

/-- Settles O2: each opcode fixes the class, and the class fixes the decoder's answer on the word's fields. -/
theorem opcodeMapIsComplete : Obligations.OpcodeMapIsComplete := by
  intro w
  rw [← drField_eq_drOf, ← sr1Field_eq_sr1Of, ← sr2Field_eq_sr2Of, ← opField_eq_ofNat]
  refine ⟨?sub, ?or, ?not, ?and, ?add, ?halt, ?illegal⟩
  case illegal =>
    intro h
    rw [decode, (illegalWord_iff w).mp h]
  all_goals
    intro h
    rw [decode, opClass_opField_of_opOf h]
    rfl

/-! ## The word of a quadruple -/

/-- A field shifted above a value that is short enough is added to it. -/
theorem toNat_shiftLeft_or {a k : Nat} {v : Word} (ha : a * 2 ^ k < 2 ^ 16) (hv : v.toNat < 2 ^ k) :
    (BitVec.ofNat 16 a <<< k ||| v).toNat = a * 2 ^ k + v.toNat := by
  have hshift : (BitVec.ofNat 16 a <<< k).toNat = a <<< k := by
    rw [BitVec.toNat_shiftLeft, BitVec.toNat_ofNat, Nat.shiftLeft_eq, Nat.shiftLeft_eq, Nat.mod_mul_mod,
      Nat.mod_eq_of_lt ha]
  rw [BitVec.toNat_or, hshift, ← Nat.shiftLeft_add_eq_or_of_lt hv, Nat.shiftLeft_eq]

/-- The layout of R56 as a number, for fields in range: each field stands above the ones after it. -/
theorem packFields_toNat {f : Fields} (hop : f.op < 16) (hdr : f.dr < 8) (hsr1 : f.sr1 < 8) (hsr2 : f.sr2 < 8) :
    (packFields f).toNat = f.op * 4096 + f.dr * 512 + f.sr1 * 64 + f.sr2 := by
  have h2 : (BitVec.ofNat 16 f.sr2).toNat = f.sr2 := Nat.mod_eq_of_lt (by omega)
  have h1 := toNat_shiftLeft_or (a := f.sr1) (k := 6) (v := BitVec.ofNat 16 f.sr2) (by omega) (by omega)
  have hd := toNat_shiftLeft_or (a := f.dr) (k := 9) (by omega) (h1.trans_lt (by omega))
  have ho := toNat_shiftLeft_or (a := f.op) (k := 12) (by omega) (hd.trans_lt (by omega))
  rw [packFields, BitVec.or_assoc, BitVec.or_assoc, ho, hd, h1, h2]
  omega

/-- Settles O3: the word's number is that of the layout, and division reads the fields back from it (R54). -/
theorem encodeInvertsExtraction : Obligations.EncodeInvertsExtraction := by
  intro op dr sr1 sr2 hop hdr hsr1 hsr2
  have hword := packFields_toNat (f := { op := op, dr := dr, sr1 := sr1, sr2 := sr2 }) hop hdr hsr1 hsr2
  refine ⟨_, if_pos ?inRange, hword, ?extracted⟩
  case inRange => simp [Fields.wellFormed, hop, hdr, hsr1, hsr2]
  case extracted =>
    rw [fieldsOfEveryWord, hword, Fields.mk.injEq]
    dsimp only
    omega

end Sys2Proof.Machine
end

section
/-! Proofs of the family 40_sequencer.md. First what a word computes in exact arithmetic, the step at each class of word and
the status after it (R89 to R91, R94), which settle the pseudocode and the outcomes; then the pc (R93) and the halted core
(R95). -/
namespace Sys2Proof.Machine
open Sys2Proof.Claims

/-! ## The exact results of the ALU -/

/-- SUB modulo 2^16 as a number that does not go below 0 (41_alu.md R103). -/
theorem sub_eq_ofNat (a b : Word) : a - b = BitVec.ofNat 16 (a.toNat + 65536 - b.toNat) := by
  have hb := b.isLt
  apply BitVec.eq_of_toNat_eq
  rw [BitVec.toNat_sub, BitVec.toNat_ofNat]
  omega

/-- NOT as a number: the complement of each bit (41_alu.md R106). -/
theorem not_eq_ofNat (a : Word) : ~~~a = BitVec.ofNat 16 (65535 - a.toNat) := by
  apply BitVec.eq_of_toNat_eq
  rw [BitVec.toNat_not, BitVec.toNat_ofNat]
  omega

/-! The value a word computes, opcode by opcode, as the ALU computes it on 16-bit words (41_alu.md R100, R101). -/
section
variable {w : Word} (x : RegIdx → Word)

theorem wordResult_add (h : opOf w = 5) : wordResult w x = x (sr1Of w) + x (sr2Of w) := by
  simp [wordResult, exactResult, h, BitVec.ofNat_add]

theorem wordResult_sub (h : opOf w = 1) : wordResult w x = x (sr1Of w) - x (sr2Of w) := by
  simp [wordResult, exactResult, h, sub_eq_ofNat]

theorem wordResult_and (h : opOf w = 4) : wordResult w x = x (sr1Of w) &&& x (sr2Of w) := by
  simp [wordResult, exactResult, h]

theorem wordResult_or (h : opOf w = 2) : wordResult w x = x (sr1Of w) ||| x (sr2Of w) := by
  simp [wordResult, exactResult, h]

theorem wordResult_not (h : opOf w = 3) : wordResult w x = ~~~ x (sr1Of w) := by
  simp [wordResult, exactResult, h, not_eq_ofNat]

end

/-- An ALU word decodes to an instruction that writes the word's exact result to the register of the DR field
(41_alu.md R101 to R106). -/
theorem exec_of_aluWord {w : Word} (hw : AluWord w) :
    ∃ i, decode w = .ok i ∧ ∀ s, exec i s = .next (s.setReg (drOf w) (wordResult w s.reg)) := by
  obtain ⟨hsub, hor, hnot, hand, hadd, -, -⟩ := opcodeMapIsComplete w
  have hop : opOf w = 1 ∨ opOf w = 2 ∨ opOf w = 3 ∨ opOf w = 4 ∨ opOf w = 5 := by omega
  rcases hop with h | h | h | h | h
  · exact ⟨_, hsub h, fun s => by rw [execSub_spec, wordResult_sub _ h]⟩
  · exact ⟨_, hor h, fun s => by rw [execOr_spec, wordResult_or _ h]⟩
  · exact ⟨_, hnot h, fun s => by rw [execNot_spec, wordResult_not _ h]⟩
  · exact ⟨_, hand h, fun s => by rw [execAnd_spec, wordResult_and _ h]⟩
  · exact ⟨_, hadd h, fun s => by rw [execAdd_spec, wordResult_add _ h]⟩

/-! ## The step at each class of word -/

/-- The pc's increment as a number modulo 2^16 (40_sequencer.md R88). -/
theorem addr_add_one (a : Addr) : a + 1#16 = BitVec.ofNat 16 (a.toNat + 1) := by
  rw [BitVec.ofNat_add, BitVec.ofNat_toNat, BitVec.setWidth_eq]

/-- The start of a live core's step: the incremented pc and phase Running (40_sequencer.md R87, R88). -/
theorem beginStep_of_live {s : State} (hl : s.Live) :
    beginStep s = { s with pc := BitVec.ofNat 16 (s.pc.toNat + 1), phase := .running } := by
  rw [← addr_add_one, ← beginStep_phase_of_not_halted hl.phase]
  rfl

section
variable {s : State} (hr : s.running = true)
include hr

/-- A step at a word that decodes to an instruction executes it (40_sequencer.md R90). -/
theorem step_of_decode_ok {i : Instr} (hd : decode (s.wordAt s.pc) = .ok i) : step s = exec i (beginStep s) := by
  simp [step, hr, decodeFetched, fetchWord_eq_wordAt, hd]

/-- A step at an ALU word writes its exact result to the register of the DR field. -/
theorem step_eq_of_aluWord (hw : AluWord (s.wordAt s.pc)) :
    step s = .next ((beginStep s).setReg (drOf (s.wordAt s.pc)) (wordResult (s.wordAt s.pc) s.reg)) := by
  obtain ⟨i, hd, hexec⟩ := exec_of_aluWord hw
  exact (step_of_decode_ok hr hd).trans (hexec (beginStep s))

/-- A step at a HALT stops the core. -/
theorem step_of_haltWord (hw : opOf (s.wordAt s.pc) = 15) : step s = .next (stop (beginStep s)) := by
  obtain ⟨-, -, -, -, -, hhalt, -⟩ := opcodeMapIsComplete (s.wordAt s.pc)
  exact (step_of_decode_ok hr (hhalt hw)).trans (execHalt_spec _)

/-- A step at an illegal word takes the exception with the word's opcode and address (60_exceptions.md R117). -/
theorem step_of_illegalWord (hw : IllegalWord (s.wordAt s.pc)) :
    step s = .next (takeIllegalOpcode (BitVec.ofNat 4 (opOf (s.wordAt s.pc))) s.pc (beginStep s)) := by
  obtain ⟨-, -, -, -, -, -, hillegal⟩ := opcodeMapIsComplete (s.wordAt s.pc)
  simp [step, hr, decodeFetched, fetchWord_eq_wordAt, hillegal hw]

end

/-! ## The status and the outcome after a step -/

/-- The status in phase Halted tells a fault from a HALT (10_state.md R27). -/
theorem State.status_of_halted {s : State} (h : s.phase = .halted) :
    s.status = if s.fault then .faulted else .halted := by
  simp [State.status, h]

/-- The outcome in phase Halted tells a fault from a HALT (40_sequencer.md R94, R95). -/
theorem State.outcome_of_halted {s : State} (h : s.phase = .halted) :
    s.outcome = if s.fault then .faulted else .halted := by
  rw [State.outcome, State.status_of_halted h]
  cases s.fault <;> rfl

theorem State.outcome_of_status_running {s : State} (h : s.status = .running) : s.outcome = .continued := by
  simp [State.outcome, h]

theorem State.outcome_of_status_halted {s : State} (h : s.status = .halted) : s.outcome = .halted := by
  simp [State.outcome, h]

theorem State.outcome_of_status_faulted {s : State} (h : s.status = .faulted) : s.outcome = .faulted := by
  simp [State.outcome, h]

section
variable {s t : State} (hl : s.Live) (h : step s = .next t)
include hl h

/-- After an ALU word the status is RUNNING. -/
theorem status_after_aluWord (hw : AluWord (s.wordAt s.pc)) : t.status = .running := by
  obtain rfl := Host.Outcome.next.inj ((step_eq_of_aluWord hl.running hw).symm.trans h)
  exact (State.status_eq_running_iff _).mpr (beginStep_phase_of_not_halted hl.phase)

/-- After a HALT from a core without a latched fault the status is HALTED, and still no fault is latched. -/
theorem status_after_haltWord (hw : opOf (s.wordAt s.pc) = 15) (hf : s.fault = false) :
    t.status = .halted ∧ t.fault = false := by
  obtain rfl := Host.Outcome.next.inj ((step_of_haltWord hl.running hw).symm.trans h)
  exact ⟨(State.status_of_halted rfl).trans (by simp [hf]), hf⟩

/-- After an illegal word the status is FAULTED, with the word's opcode and address latched. -/
theorem status_after_illegalWord (hw : IllegalWord (s.wordAt s.pc)) :
    t.status = .faulted ∧ t.faultOpcode = BitVec.ofNat 4 (opOf (s.wordAt s.pc)) ∧ t.faultAddr = s.pc := by
  obtain rfl := Host.Outcome.next.inj ((step_of_illegalWord hl.running hw).symm.trans h)
  exact ⟨State.status_of_halted rfl, rfl, rfl⟩

end

/-- Settles O18: the step at the word's class, on the begun state, with the exact result of its opcode. -/
theorem stepIsThePseudocode : Obligations.StepIsThePseudocode := by
  intro s hl w d a b s' result
  have hbegin : beginStep s = s' := beginStep_of_live hl
  have halu (hw : AluWord w) : step s = result (exactResult (opOf w) a.toNat b.toNat) :=
    (step_eq_of_aluWord hl.running hw).trans (by rw [hbegin]; rfl)
  refine ⟨?add, ?sub, ?and, ?or, ?not, ?halt, ?illegal, ?outcome⟩
  case halt => exact fun hw => (step_of_haltWord hl.running hw).trans (by rw [hbegin]; rfl)
  case illegal => exact fun hw => (step_of_illegalWord hl.running hw).trans (by rw [hbegin]; rfl)
  case outcome =>
    obtain ⟨t, hstep⟩ := step_total s
    exact ⟨t, hstep, fun hw => State.outcome_of_status_running (status_after_aluWord hl hstep hw),
      fun hw hf => State.outcome_of_status_halted (status_after_haltWord hl hstep hw hf).1,
      fun hw => State.outcome_of_status_faulted (status_after_illegalWord hl hstep hw).1⟩
  all_goals
    intro hop
    rw [halu (by omega), hop]
    rfl

/-- Settles O22: the status by phase and fault, and the status after the step at each class of word. -/
theorem stepOutcomes : Obligations.StepOutcomes := by
  refine ⟨fun s => ⟨?ready, ?running, ?halted, ?faulted⟩, fun s hl hf => ?step⟩
  case ready =>
    intro h
    rw [s.status_eq_ready_iff.mpr h]
    exact ⟨rfl, rfl⟩
  case running =>
    intro h
    rw [s.status_eq_running_iff.mpr h]
    exact ⟨rfl, rfl⟩
  case halted | faulted =>
    intro h hf
    rw [State.status_of_halted h, hf]
    exact ⟨rfl, rfl⟩
  case step =>
    obtain ⟨t, hstep⟩ := step_total s
    refine ⟨t, t.outcome, handle_step hstep, fun hw => ?alu, fun hw => ?haltWord, fun hw => ?illegal⟩
    case alu =>
      have hstatus := status_after_aluWord hl hstep hw
      exact ⟨State.outcome_of_status_running hstatus, hstatus⟩
    case haltWord =>
      have hafter := status_after_haltWord hl hstep hw hf
      exact ⟨State.outcome_of_status_halted hafter.1, hafter⟩
    case illegal =>
      have hafter := status_after_illegalWord hl hstep hw
      exact ⟨State.outcome_of_status_faulted hafter.1, hafter⟩

/-! ## The pc -/

/-- No instruction changes the pc (40_sequencer.md R93). -/
theorem exec_pc (i : Instr) (s : State) : ∃ t, exec i s = .next t ∧ t.pc = s.pc := by
  rcases exec_cases i s with ⟨-, d, v, hexec⟩ | ⟨-, hexec⟩
  · exact ⟨_, hexec, s.setReg_pc d v⟩
  · exact ⟨_, hexec, stop_pc s⟩

/-- Every step of a running core increments the pc (40_sequencer.md R88). -/
theorem step_pc {s t : State} (hr : s.running = true) (h : step s = .next t) : t.pc = s.pc + 1#16 := by
  rcases step_cases s with ⟨hf, -⟩ | ⟨-, i, -, hs⟩ | ⟨-, -, -, hs⟩
  · simp [hr] at hf
  · obtain ⟨u, hu, hpc⟩ := exec_pc i (beginStep s)
    obtain rfl := Host.Outcome.next.inj (h.symm.trans (hs.trans hu))
    exact hpc
  · obtain rfl := Host.Outcome.next.inj (h.symm.trans hs)
    rfl

/-- Steps of a core that is not running change nothing (40_sequencer.md R95). -/
theorem stepN_of_not_running {s : State} (h : s.running = false) (k : Nat) : stepN k s = .next s := by
  induction k with
  | zero => rfl
  | succ k ih => rw [stepN_succ (step_of_not_running h), ih]

/-- A core that still runs after `k` steps has its pc `k` further on: it ran all the way, since a stopped core stays as it
is. -/
theorem stepN_pc {k : Nat} {s t : State} (h : stepN k s = .next t) (hr : t.running = true) :
    t.pc = BitVec.ofNat 16 (s.pc.toNat + k) := by
  induction k generalizing s with
  | zero =>
    obtain rfl := Host.Outcome.next.inj h
    simp
  | succ k ih =>
    have hs : s.running = true := by
      by_contra hs
      have hstay := stepN_of_not_running (Bool.eq_false_iff.mpr hs) (k + 1)
      exact hs (Host.Outcome.next.inj (hstay.symm.trans h) ▸ hr)
    obtain ⟨u, hu⟩ := step_total s
    rw [stepN_succ hu] at h
    rw [ih h, step_pc hs hu]
    apply BitVec.eq_of_toNat_eq
    simp only [BitVec.toNat_ofNat, BitVec.toNat_add]
    omega

/-- Settles O20: for an instruction, for one step, and for `k` steps. -/
theorem pcOnlyCountsUp : Obligations.PcOnlyCountsUp := by
  refine ⟨exec_pc, fun s hl => ?oneStep, fun k s _ => ?manySteps⟩
  case oneStep =>
    obtain ⟨t, hstep⟩ := step_total s
    exact ⟨t, hstep, (step_pc hl.running hstep).trans (addr_add_one s.pc)⟩
  case manySteps =>
    obtain ⟨t, hsteps⟩ := stepN_total k s
    exact ⟨t, hsteps, fun hl => stepN_pc hsteps hl.running⟩

/-! ## The halted core -/

/-- PRESET outside phase Ready is refused (70_reset_and_hazards.md R140). -/
theorem handle_preset_notReady {s : State} (i : RegIdx) (v : Word) (hready : s.phase ≠ .ready) :
    handle (.preset i v) s = (s, .refused .presetNotReady) := by
  simp [handle, presetReg, settle, hready]

/-- A STEP in a halted core answers the standing status (40_sequencer.md R95). -/
theorem handle_step_of_halted {s : State} (hr : s.running = false) (hp : s.phase = .halted) :
    handle .step s = (s, .stepped (if s.fault then .faulted else .halted)) := by
  rw [handle_step (step_of_not_running hr), State.outcome_of_halted hp]

/-- No request but RESET changes a halted core (42_halt.md R113). -/
theorem handle_of_halted {s : State} (hr : s.running = false) (hp : s.phase = .halted) {q : Request}
    (hq : q ≠ .reset) : (handle q s).1 = s := by
  have hready : s.phase ≠ .ready := by simp [hp]
  cases q with
  | reset => exact absurd rfl hq
  | load words => rw [handle_load_notReady words hready]
  | preset i v => rw [handle_preset_notReady i v hready]
  | step => rw [handle_step_of_halted hr hp]
  | readout => rfl

/-- No sequence of requests without RESET changes a halted core (42_halt.md R113). -/
theorem handleAll_of_halted {s : State} (hr : s.running = false) (hp : s.phase = .halted) {qs : List Request}
    (hqs : .reset ∉ qs) : handleAll qs s = s := by
  induction qs with
  | nil => rfl
  | cons q qs ih =>
    obtain ⟨hq, hqs⟩ := List.ne_and_not_mem_of_not_mem_cons hqs
    rw [handleAll, handle_of_halted hr hp hq.symm, ih hqs]

/-- RUN in a halted core takes no step and returns the standing status (40_sequencer.md R96). -/
theorem runFuel_of_halted {s : State} (hp : s.phase = .halted) (fuel : Nat) :
    runFuel fuel s = .next (.ended (if s.fault then .faulted else .halted) s) := by
  rw [← State.outcome_of_halted hp]
  unfold runFuel
  exact if_pos hp

/-- Settles O37: request by request. -/
theorem haltedIsTerminal : Obligations.HaltedIsTerminal := fun _ hr hp =>
  ⟨fun _ => handleAll_of_halted hr hp, handle_step_of_halted hr hp, runFuel_of_halted hp, rfl, rfl⟩

end Sys2Proof.Machine
end

section
/-! Proofs of the family 41_alu.md. First the words and the assembly tokens that the ALU instructions share (R61, R77), then
the write of one register with its frame (R101), which settle the five instructions and the step (R102 to R106). -/
namespace Sys2Proof.Machine
open Sys2Proof.Claims

/-! ## The words of an instruction -/

/-- The mask of R102's match and mask keeps the opcode field. -/
theorem opField_and_opMask (w : Word) : opField (w &&& 0xF000#16) = opField w := by
  rw [opField, BitVec.extractLsb'_and]
  exact BitVec.and_allOnes

/-- A word that matches opcode `op` under the mask has that opcode. -/
theorem opOf_of_masked {w : Word} {op : Nat} (hop : op < 16) (h : w &&& 0xF000#16 = BitVec.ofNat 16 (op * 4096)) :
    opOf w = op := by
  rw [← opField_toNat, ← opField_and_opMask, h, opField_toNat, opOf, BitVec.toNat_ofNat]
  omega

/-- The fields of an instruction are in range (30_encoding.md R58). -/
theorem instr_fields_inRange (i : Instr) :
    i.fields.op < 16 ∧ i.fields.dr < 8 ∧ i.fields.sr1 < 8 ∧ i.fields.sr2 < 8 := by
  cases i <;> simp [Instr.fields]

/-- The word of an instruction as a number (30_encoding.md R56). -/
theorem encode_eq_ofNat (i : Instr) :
    encode i = BitVec.ofNat 16 (i.fields.op * 4096 + i.fields.dr * 512 + i.fields.sr1 * 64 + i.fields.sr2) := by
  obtain ⟨hop, hdr, hsr1, hsr2⟩ := instr_fields_inRange i
  rw [← packFields_toNat hop hdr hsr1 hsr2, BitVec.ofNat_toNat, BitVec.setWidth_eq]
  rfl

/-! ## The tokens of an instruction -/

/-- A register's written form reads as that register (30_encoding.md R75, R77). -/
theorem parseReg_regText (r : RegIdx) : parseReg (regText r) = some r := by
  simp [parseReg, regText, parseDigit_eq_some_iff]

@[simp] theorem regOperand_regText (r : RegIdx) : regOperand (regText r) = .ok r := by
  simp [regOperand, parseReg_regText]

/-- Three written registers are the operands DR, SR1, SR2 in that order (30_encoding.md R74). -/
theorem threeRegs_regText (mk : RegIdx → RegIdx → RegIdx → Instr) (d a b : RegIdx) :
    threeRegs mk (regText d) (regText a) (regText b) = .ok (some (mk d a b)) := by
  simp [threeRegs]

/-- Two written registers are the operands DR, SR1 in that order (30_encoding.md R74). -/
theorem twoRegs_regText (mk : RegIdx → RegIdx → Instr) (d a : RegIdx) :
    twoRegs mk (regText d) (regText a) = .ok (some (mk d a)) := by
  simp [twoRegs]

/-- What one instruction with three register operands has to show of its own for its words and tokens: the opcode map's
entry, its fields, and the reading of its name. -/
theorem threeOperandForm_of {op : Nat} {name : Text} {mk : RegIdx → RegIdx → RegIdx → Instr} (hop : op < 16)
    (hdecode : ∀ w, opOf w = op → decode w = .ok (mk (drOf w) (sr1Of w) (sr2Of w)))
    (hfields : ∀ d a b, (mk d a b).fields = { op := op, dr := d, sr1 := a, sr2 := b })
    (hname : ∀ x y z, parseTokens [name, x, y, z] = threeRegs mk x y z) : ThreeOperandForm op name mk := by
  refine ⟨fun w hw => hdecode w (opOf_of_masked hop hw), fun d a b => ?encoding, fun d a b => ?tokens⟩
  case encoding => rw [encode_eq_ofNat, hfields]
  case tokens => rw [hname, threeRegs_regText]

/-! ## The write of one register -/

/-- A register write changes no other register and nothing beside the registers (10_state.md R20). -/
theorem onlyWrites_setReg (s : State) (d : RegIdx) (v : Word) : OnlyWrites [d] s (s.setReg d v) where
  regs _ hr := s.reg_setReg_other v (List.ne_of_not_mem_cons hr)
  pc := rfl
  running := rfl
  phase := rfl
  fault := rfl
  faultOpcode := rfl
  faultAddr := rfl
  memory _ := rfl

/-- An instruction whose meaning is a register write completes with that value and changes nothing else. -/
theorem writes_of_exec {i : Instr} {s : State} {d : RegIdx} {v : Word} (h : exec i s = .next (s.setReg d v)) :
    Writes i s d v :=
  ⟨_, h, s.reg_setReg_same d v, onlyWrites_setReg s d v⟩

/-! ## The instructions -/

/-- Settles O9: the sum as a 16-bit addition, which commutes. -/
theorem addWritesSum : Obligations.AddWritesSum := by
  refine ⟨threeOperandForm_of (by decide) ?decode (fun _ _ _ => rfl) (fun _ _ _ => rfl), fun d a b s => ?sum,
    fun d a b s => ?comm⟩
  case decode =>
    intro w hw
    obtain ⟨-, -, -, -, hadd, -, -⟩ := opcodeMapIsComplete w
    exact hadd hw
  case sum =>
    apply writes_of_exec
    rw [execAdd_spec, BitVec.ofNat_add, BitVec.ofNat_toNat, BitVec.ofNat_toNat, BitVec.setWidth_eq, BitVec.setWidth_eq]
  case comm => rw [execAdd_spec, execAdd_spec, BitVec.add_comm]

/-- SUB is not commutative (41_alu.md R103): 0 - 1 is not 1 - 0. -/
theorem execSub_not_comm :
    exec (.sub 0 0 1) (State.reset.setReg 1 1#16) ≠ exec (.sub 0 1 0) (State.reset.setReg 1 1#16) := by
  rw [execSub_spec, execSub_spec]
  intro h
  have hreg := congrArg (State.reg · 0) (Host.Outcome.next.inj h)
  exact absurd hreg (by decide)

/-- Settles O10: the difference as a 16-bit subtraction, 0 of a value and itself, and the counterexample to commutativity. -/
theorem subWritesDifference : Obligations.SubWritesDifference := by
  refine ⟨threeOperandForm_of (by decide) ?decode (fun _ _ _ => rfl) (fun _ _ _ => rfl), fun d a b s => ?difference,
    fun d a s => ?zero, 0, 0, 1, _, execSub_not_comm⟩
  case decode =>
    intro w hw
    obtain ⟨hsub, -⟩ := opcodeMapIsComplete w
    exact hsub hw
  case difference =>
    apply writes_of_exec
    rw [execSub_spec, sub_eq_ofNat]
  case zero =>
    apply writes_of_exec
    rw [execSub_spec, BitVec.sub_self]

/-- Settles O11: the conjunction of two words is that of their bits, and of a word with itself the word. -/
theorem andWritesConjunction : Obligations.AndWritesConjunction := by
  refine ⟨threeOperandForm_of (by decide) ?decode (fun _ _ _ => rfl) (fun _ _ _ => rfl),
    fun d a b s => ⟨_, writes_of_exec (execAnd_spec d a b s), fun i => ?bits⟩, fun d a s => ?copy, fun d s => ?noEffect,
    fun d a b s => ?comm⟩
  case decode =>
    intro w hw
    obtain ⟨-, -, -, hand, -⟩ := opcodeMapIsComplete w
    exact hand hw
  case bits => rw [BitVec.toNat_and, Nat.testBit_and]
  case copy =>
    apply writes_of_exec
    rw [execAnd_spec, BitVec.and_self]
  case noEffect => rw [execAnd_spec, BitVec.and_self, State.setReg_self]
  case comm => rw [execAnd_spec, execAnd_spec, BitVec.and_comm]

/-- Settles O12: the disjunction of two words is that of their bits, and of a word with itself the word. -/
theorem orWritesDisjunction : Obligations.OrWritesDisjunction := by
  refine ⟨threeOperandForm_of (by decide) ?decode (fun _ _ _ => rfl) (fun _ _ _ => rfl),
    fun d a b s => ⟨_, writes_of_exec (execOr_spec d a b s), fun i => ?bits⟩, fun d a s => ?copy, fun d s => ?noEffect,
    fun d a b s => ?comm⟩
  case decode =>
    intro w hw
    obtain ⟨-, hor, -⟩ := opcodeMapIsComplete w
    exact hor hw
  case bits => rw [BitVec.toNat_or, Nat.testBit_or]
  case copy =>
    apply writes_of_exec
    rw [execOr_spec, BitVec.or_self]
  case noEffect => rw [execOr_spec, BitVec.or_self, State.setReg_self]
  case comm => rw [execOr_spec, execOr_spec, BitVec.or_comm]

/-- Settles O13: the complement as a number, and of a complement the value itself. -/
theorem notWritesComplement : Obligations.NotWritesComplement := by
  refine ⟨fun w hw => ?decode, fun d a => ?encoding, twoRegs_regText .not,
    fun d a s => ?complement, fun d a s => ⟨_, execNot_spec d a s, ?twice⟩⟩
  case decode =>
    obtain ⟨-, -, hnot, -⟩ := opcodeMapIsComplete w
    have hword : 0x3000#16 = BitVec.ofNat 16 (3 * 4096) := by decide
    exact hnot (opOf_of_masked (by decide) (hw.trans hword))
  case encoding =>
    have hfields : (Instr.not d a).fields = { op := 3, dr := d, sr1 := a, sr2 := 0 } := rfl
    rw [encode_eq_ofNat, hfields, Nat.add_zero]
  case complement =>
    apply writes_of_exec
    rw [execNot_spec, not_eq_ofNat]
  case twice =>
    apply writes_of_exec
    rw [execNot_spec, State.reg_setReg_same, BitVec.not_not]

/-! ## The step at an ALU word -/

/-- Settles O15: the step is the register write on the begun state. -/
theorem aluStepTouchesOneRegister : Obligations.AluStepTouchesOneRegister := by
  intro s hl hw
  have hstep := step_eq_of_aluWord hl.running hw
  refine ⟨_, hstep, State.outcome_of_status_running (status_after_aluWord hl hstep hw), State.reg_setReg_same _ _ _, ?_⟩
  rw [beginStep_of_live hl, ← addr_add_one]
  exact onlyWrites_setReg _ _ _

end Sys2Proof.Machine
end

section
/-! Proof of the family 42_halt.md: the words of HALT, its effect, and the step at one (R110, R111). -/
namespace Sys2Proof.Machine
open Sys2Proof.Claims

/-- A step of a running core at a HALT changes the pc, `running` and `phase` alone: the Running that a first step enters is
overwritten by Halted in the same step (40_sequencer.md R87, 42_halt.md R111). -/
theorem step_of_haltWord_frame {s : State} (hr : s.running = true) (hw : opOf (s.wordAt s.pc) = 15) :
    step s = .next { s with pc := s.pc + 1#16, running := false, phase := .halted } := by
  rw [step_of_haltWord hr hw]
  rfl

/-- Settles O14: the opcode map's entry for 15, and `stop` as the whole effect, on its own and at the end of a step. -/
theorem haltStopsTheCore : Obligations.HaltStopsTheCore := by
  refine ⟨?encoding, fun w hw => ?decode, ?token, execHalt_spec, fun s hl hf hw => ?step⟩
  case encoding => decide
  case decode =>
    obtain ⟨-, -, -, -, -, hhalt, -⟩ := opcodeMapIsComplete w
    have hword : 0xF000#16 = BitVec.ofNat 16 (15 * 4096) := by decide
    exact hhalt (opOf_of_masked (by decide) (hw.trans hword))
  case token => rfl
  case step =>
    have hstep := step_of_haltWord_frame hl.running hw
    obtain ⟨hstatus, -⟩ := status_after_haltWord hl hstep hw hf
    exact ⟨_, hstep, rfl, hstatus, State.outcome_of_status_halted hstatus⟩

end Sys2Proof.Machine
end

section
/-! Proofs of the family 60_exceptions.md. First the three kinds of word and the fault latch after a step at each; then what an
illegal word leaves (R117), and that nothing else latches a fault (R116). -/
namespace Sys2Proof.Machine
open Sys2Proof.Claims

/-! ## The fault latch after a step -/

/-- Every word is an ALU word, a HALT or illegal (30_encoding.md R61, R63). -/
theorem aluWord_or_haltWord_or_illegalWord (w : Word) : AluWord w ∨ opOf w = 15 ∨ IllegalWord w := by
  have hlt : opOf w < 16 := Nat.div_lt_of_lt_mul w.isLt
  omega

section
variable {s t : State} (hl : s.Live)
include hl

/-- A step at an illegal word changes the pc, `running`, `phase` and the three fault latches alone: the Running that a first
step enters is overwritten by Halted in the same step (40_sequencer.md R87, 60_exceptions.md R117). -/
theorem step_of_illegalWord_frame (hw : IllegalWord (s.wordAt s.pc)) :
    step s = .next { s with
      pc := s.pc + 1#16, running := false, phase := .halted
      fault := true, faultOpcode := BitVec.ofNat 4 (opOf (s.wordAt s.pc)), faultAddr := s.pc } := by
  rw [step_of_illegalWord hl.running hw]
  rfl

/-- A step at a word with a legal opcode leaves the fault latch as it is: an ALU op writes a register, a HALT stops
(60_exceptions.md R116, R122). -/
theorem step_fault_of_legalWord (h : step s = .next t) (hw : ¬ IllegalWord (s.wordAt s.pc)) : t.fault = s.fault := by
  rcases aluWord_or_haltWord_or_illegalWord (s.wordAt s.pc) with halu | hhalt | hill
  · obtain rfl := Host.Outcome.next.inj ((step_eq_of_aluWord hl.running halu).symm.trans h)
    rfl
  · obtain rfl := Host.Outcome.next.inj ((step_of_haltWord hl.running hhalt).symm.trans h)
    rfl
  · exact absurd hill hw

/-- A step latches a fault exactly at an illegal word (60_exceptions.md R116). -/
theorem step_fault_iff_illegalWord (hf : s.fault = false) (h : step s = .next t) :
    t.fault = true ↔ IllegalWord (s.wordAt s.pc) := by
  constructor
  · intro ht
    by_contra hw
    rw [step_fault_of_legalWord hl h hw, hf] at ht
    exact absurd ht Bool.false_ne_true
  · intro hw
    obtain rfl := Host.Outcome.next.inj ((step_of_illegalWord_frame hl hw).symm.trans h)
    rfl

end

/-- No request but STEP latches a fault, accepted or refused (60_exceptions.md R116). -/
theorem handle_latches_no_fault {s : State} {q : Request} (hstep : q ≠ .step) (hf : s.fault = false) :
    (handle q s).1.fault = false := by
  cases q with
  | step => exact absurd rfl hstep
  | reset => rfl
  | load words => rcases handle_load_cases words s with h | h <;> simp [h, hf]
  | preset i v => rcases handle_preset_cases i v s with h | h <;> simp [h, hf]
  | readout => exact hf

/-! ## The exception -/

/-- Settles O24: the step at an illegal word, whose status is FAULTED. -/
theorem illegalOpcodeIsLatched : Obligations.IllegalOpcodeIsLatched := by
  intro s hl hw
  have hstep := step_of_illegalWord_frame hl hw
  obtain ⟨hstatus, -⟩ := status_after_illegalWord hl hstep hw
  exact ⟨_, hstep, State.outcome_of_status_faulted hstatus, rfl⟩

/-- Settles O25: a latched fault means an illegal word, and then the report is that of the step at one. -/
theorem onlyIllegalOpcodesFault : Obligations.OnlyIllegalOpcodesFault := by
  refine ⟨fun s hl hf => ?step, fun s q => handle_latches_no_fault⟩
  case step =>
    obtain ⟨t, hstep⟩ := step_total s
    have hiff := step_fault_iff_illegalWord hl hf hstep
    refine ⟨t, hstep, hiff, fun ht => ?report⟩
    have hw := hiff.mp ht
    obtain ⟨hstatus, hop, haddr⟩ := status_after_illegalWord hl hstep hw
    have hphase : t.phase = .halted := by
      obtain rfl := Host.Outcome.next.inj ((step_of_illegalWord_frame hl hw).symm.trans hstep)
      rfl
    refine ⟨?opcode, haddr, hphase, ?notHalted⟩
    case opcode => rw [hop, ← opField_eq_ofNat, opField_toNat]
    case notHalted =>
      rw [hstatus]
      decide

end Sys2Proof.Machine
end

section
/-! Proofs of the family 70_reset_and_hazards.md. First what a read returns after reset and PRESET's answer in phase Ready; then
that PRESET writes one register (R140), and that RESET sets every field (R134). -/
namespace Sys2Proof.Machine

/-! ## Reads after reset -/

/-- Every register is 0x0000 after reset (10_state.md R29). -/
@[simp] theorem State.reg_reset (r : RegIdx) : State.reset.reg r = 0x0000#16 :=
  Vector.getElem_replicate r.isLt

/-- Every memory word is 0x0000 after reset (10_state.md R29). -/
@[simp] theorem State.wordAt_reset (a : Addr) : State.reset.wordAt a = 0x0000#16 := Memory.read_nil a.toNat

/-! ## PRESET -/

/-- PRESET in phase Ready is a register write (70_reset_and_hazards.md R140). -/
theorem handle_preset_ready {s : State} (i : RegIdx) (v : Word) (hready : s.phase = .ready) :
    handle (.preset i v) s = (s.setReg i v, .done) := by
  simp [handle, presetReg, settle, Config.hostPreset, hready]

/-- Settles O35: accepted in phase Ready as a register write, refused in any other. -/
theorem presetWritesOneRegister : Obligations.PresetWritesOneRegister := by
  refine fun s i v => ⟨fun hready => ?accepted, fun hready => ?refused⟩
  case accepted =>
    exact ⟨_, handle_preset_ready i v hready, s.reg_setReg_same i v, onlyWrites_setReg s i v⟩
  case refused => exact ⟨_, handle_preset_notReady i v hready⟩

/-! ## RESET -/

/-- Settles O32: RESET answers the reset state from any state, and each of its fields is the one of 10_state.md R29. -/
theorem resetSetsEveryField : Obligations.ResetSetsEveryField :=
  fun _ => ⟨State.reset, rfl, State.wordAt_reset, State.reg_reset, rfl, rfl, rfl, rfl, rfl, rfl⟩

end Sys2Proof.Machine
end

section
/-! Proofs about the encoding (30_encoding.md sections 1 to 4). First the fields of an instruction's word, with which decoding
undoes encoding (R66); then re-encoding, the encoder's refusals (92_eei_decisions.md D24), and the bits that decoding ignores
(R55, R59, R64). -/
namespace Sys2Proof.Machine
open Sys2Proof.Claims

/-! ## The fields of an instruction's word -/

section
variable (i : Instr)

/-- The word of an instruction is its quadruple's layout as a number (30_encoding.md R56). -/
theorem encode_toNat :
    (encode i).toNat = i.fields.op * 4096 + i.fields.dr * 512 + i.fields.sr1 * 64 + i.fields.sr2 := by
  obtain ⟨hop, hdr, hsr1, hsr2⟩ := instr_fields_inRange i
  exact packFields_toNat hop hdr hsr1 hsr2

theorem opOf_encode : opOf (encode i) = i.fields.op := by
  have hrange := instr_fields_inRange i
  rw [opOf, encode_toNat]
  omega

theorem drOf_encode : drOf (encode i) = Fin.ofNat 8 i.fields.dr := by
  have hrange := instr_fields_inRange i
  rw [drOf, encode_toNat, Fin.ext_iff, Fin.val_ofNat, Fin.val_ofNat]
  omega

theorem sr1Of_encode : sr1Of (encode i) = Fin.ofNat 8 i.fields.sr1 := by
  have hrange := instr_fields_inRange i
  rw [sr1Of, encode_toNat, Fin.ext_iff, Fin.val_ofNat, Fin.val_ofNat]
  omega

theorem sr2Of_encode : sr2Of (encode i) = Fin.ofNat 8 i.fields.sr2 := by
  rw [sr2Of, encode_toNat, Fin.ext_iff, Fin.val_ofNat, Fin.val_ofNat]
  omega

/-- Bits 5..3 of an instruction's word are zero (30_encoding.md R56). -/
theorem encode_reservedBits : (encode i).toNat / 8 % 8 = 0 := by
  have hrange := instr_fields_inRange i
  rw [encode_toNat]
  omega

/-- Decoding undoes encoding: the opcode map at the instruction's opcode, read on the instruction's own fields. -/
theorem decode_encode : decode (encode i) = .ok i := by
  obtain ⟨hsub, hor, hnot, hand, hadd, hhalt, -⟩ := opcodeMapIsComplete (encode i)
  rw [drOf_encode, sr1Of_encode, sr2Of_encode] at hsub hor hand hadd
  rw [drOf_encode, sr1Of_encode] at hnot
  cases i with
  | add d a b => simpa [Instr.fields] using hadd (opOf_encode _)
  | sub d a b => simpa [Instr.fields] using hsub (opOf_encode _)
  | and d a b => simpa [Instr.fields] using hand (opOf_encode _)
  | or d a b => simpa [Instr.fields] using hor (opOf_encode _)
  | not d a => simpa [Instr.fields] using hnot (opOf_encode _)
  | halt => exact hhalt (opOf_encode _)

end

/-- A quadruple is well formed exactly when its four fields are in range (92_eei_decisions.md D24). -/
theorem fields_wellFormed_iff (f : Fields) :
    f.wellFormed = true ↔ f.op < 16 ∧ f.dr < 8 ∧ f.sr1 < 8 ∧ f.sr2 < 8 := by
  simp [Fields.wellFormed, and_assoc]

/-- Settles O5: the fields are in range, and the opcode map reads them back. -/
theorem decodeOfEncodeIsIdentity : Obligations.DecodeOfEncodeIsIdentity := fun i =>
  ⟨(fields_wellFormed_iff i.fields).mpr (instr_fields_inRange i), decode_encode i⟩

/-! ## Re-encoding and refusal -/

/-- Settles O4: `none` is the answer to an ill-formed quadruple alone. -/
theorem encodeRefusesOutOfRange : Obligations.EncodeRefusesOutOfRange := by
  intro f
  have hnone : encodeFields f = none ↔ ¬ f.wellFormed = true := by simp [encodeFields]
  rw [hnone, fields_wellFormed_iff]
  omega

/-- Extraction gives fields in range (30_encoding.md R54). -/
theorem fieldsOf_inRange (w : Word) :
    (fieldsOf w).op < 16 ∧ (fieldsOf w).dr < 8 ∧ (fieldsOf w).sr1 < 8 ∧ (fieldsOf w).sr2 < 8 := by
  have hw := w.isLt
  rw [fieldsOfEveryWord w]
  dsimp only
  omega

/-- Settles O6: packing the extracted fields rebuilds the number of the word without its bits 5..3. -/
theorem reencodingFixesCanonicalWords : Obligations.ReencodingFixesCanonicalWords := by
  intro w
  have hw := w.isLt
  obtain ⟨hop, hdr, hsr1, hsr2⟩ := fieldsOf_inRange w
  rw [encodeFields, if_pos ((fields_wellFormed_iff _).mpr ⟨hop, hdr, hsr1, hsr2⟩), Option.some_inj, ← BitVec.toNat_inj,
    packFields_toNat hop hdr hsr1 hsr2, fieldsOfEveryWord w]
  dsimp only
  omega

/-- Settles O8: each word evaluated. -/
theorem writtenWordsDecode : Obligations.WrittenWordsDecode := by
  unfold Obligations.WrittenWordsDecode
  decide

/-! ## Ignored bits -/

/-- A mask with every bit of a field set keeps the field. -/
theorem extractLsb'_and_of_allOnes {m : Word} {start len : Nat} (hm : m.extractLsb' start len = BitVec.allOnes len)
    (w : Word) : (w &&& m).extractLsb' start len = w.extractLsb' start len := by
  rw [BitVec.extractLsb'_and, hm, BitVec.and_allOnes]

/-- Decoding ignores bits 5..3 (30_encoding.md R55). -/
theorem decode_clear_reservedBits (w : Word) : decode (w &&& 0xFFC7#16) = decode w := by
  have hop : opField (w &&& 0xFFC7#16) = opField w := extractLsb'_and_of_allOnes (by decide) w
  have hdr : drField (w &&& 0xFFC7#16) = drField w := congrArg BitVec.toFin (extractLsb'_and_of_allOnes (by decide) w)
  have hsr1 : sr1Field (w &&& 0xFFC7#16) = sr1Field w :=
    congrArg BitVec.toFin (extractLsb'_and_of_allOnes (by decide) w)
  have hsr2 : sr2Field (w &&& 0xFFC7#16) = sr2Field w :=
    congrArg BitVec.toFin (extractLsb'_and_of_allOnes (by decide) w)
  rw [decode, decode, hop, hdr, hsr1, hsr2]

/-- Decoding a NOT ignores its SR2 field too (30_encoding.md R59). -/
theorem decode_clear_lowBits_of_not {w : Word} (h : opOf w = 3) : decode (w &&& 0xFFC0#16) = decode w := by
  have hop : opField (w &&& 0xFFC0#16) = opField w := extractLsb'_and_of_allOnes (by decide) w
  have hdr : drField (w &&& 0xFFC0#16) = drField w := congrArg BitVec.toFin (extractLsb'_and_of_allOnes (by decide) w)
  have hsr1 : sr1Field (w &&& 0xFFC0#16) = sr1Field w :=
    congrArg BitVec.toFin (extractLsb'_and_of_allOnes (by decide) w)
  rw [decode, decode, hop, hdr, hsr1, opClass_opField_of_opOf h]
  rfl

/-- Decoding a HALT ignores every field (30_encoding.md R64). -/
theorem decode_of_halt {w : Word} (h : opOf w = 15) : decode w = .ok .halt := by
  obtain ⟨-, -, -, -, -, hhalt, -⟩ := opcodeMapIsComplete w
  exact hhalt h

/-- A step meets the memory through the decoded word alone: with another memory whose word at the pc decodes alike, the next
state differs in the memory only. -/
theorem step_of_decode_eq {s : State} (m : Memory) (hd : decode (m.read s.pc.toNat) = decode (fetchWord s)) :
    ∃ t, step s = .next t ∧ step { s with imem := m } = .next { t with imem := m } := by
  have hfetch : decodeFetched { s with imem := m } = decodeFetched s := hd
  rcases step_cases s with ⟨hr, hs⟩ | ⟨hr, i, hi, hs⟩ | ⟨hr, he, -, hs⟩
  · exact ⟨s, hs, step_of_not_running hr⟩
  · obtain ⟨t, ht, -, hm⟩ := noInstructionUsesMemory i (beginStep s) m
    refine ⟨t, hs.trans ht, ?_⟩
    rw [step, if_pos hr, hfetch, decodeFetched, hi]
    exact hm
  · refine ⟨_, hs, ?_⟩
    rw [step, if_pos hr, hfetch, decodeFetched, he]
    rfl

/-- Settles O7: the two words decode alike, and a step sees a word through the decoder alone. -/
theorem ignoredBitsHaveNoEffect : Obligations.IgnoredBitsHaveNoEffect := by
  intro s w c _ hwf hc
  have hdecode : decode c = decode w := by
    rcases hc with rfl | ⟨hop, rfl⟩ | ⟨hop, rfl⟩
    · exact decode_clear_reservedBits w
    · exact decode_clear_lowBits_of_not hop
    · rw [decode_of_halt hop]
      decide
  apply step_of_decode_eq
  rw [fetchWord, Memory.read_write_same hwf, Memory.read_write_same hwf, hdecode]

end Sys2Proof.Machine
end

section
/-! Proofs about a step (40_sequencer.md section 1): what it runs, the datapath that performs it (10_state.md section 4), a
result that the next step reads (R99), negation in two ways (41_alu.md R108), and the report of a fault (60_exceptions.md
R118). -/
namespace Sys2Proof.Machine
open Sys2Proof.Claims

/-- Settles O17: the begun state is the state the statement writes out. -/
theorem stepRunsDecodedInstruction : Obligations.StepRunsDecodedInstruction :=
  fun _ _ hr hd => step_of_decode_ok hr hd

/-! ## The datapath -/

/-- A word whose class sets the write-port enable decodes to an instruction that writes the selected ALU function's result to
the register of the DR field (10_state.md R20, 41_alu.md R100). -/
theorem exec_of_writeEnable {w : Word} (h : writeEnable (opClass (opField w)) = true) :
    ∃ i, decode w = .ok i ∧ ∀ s, exec i s = .next (s.setReg (drField w)
      (alu (aluSelect (opClass (opField w))) (portA s (sr1Field w)) (portB s (sr2Field w)))) := by
  rcases hc : opClass (opField w) with _ | _ | _ | _ | _ | _ | _
  case halt | illegal =>
    rw [hc] at h
    exact absurd h (by decide)
  all_goals exact ⟨_, by rw [decode, hc], fun _ => rfl⟩

/-- The datapath idles while `running` is false (40_sequencer.md R95). -/
theorem datapathStep_of_not_running {s : State} (hr : s.running = false) : datapathStep s = s := by
  simp [datapathStep, hr]

section
variable {s : State} (hr : s.running = true)
include hr

/-- With the write-port enable set, the datapath begins the step and writes the ALU's result to the register of the DR
field. -/
theorem datapathStep_of_writeEnable (h : writeEnable (opClass (opField (fetchWord s))) = true) :
    datapathStep s = (beginStep s).setReg (drField (fetchWord s))
      (alu (aluSelect (opClass (opField (fetchWord s)))) (portA s (sr1Field (fetchWord s)))
        (portB s (sr2Field (fetchWord s)))) := by
  have hhalt : opClass (opField (fetchWord s)) ≠ .halt := fun e => by simp [e, writeEnable] at h
  have hill : opClass (opField (fetchWord s)) ≠ .illegal := fun e => by simp [e, writeEnable] at h
  simp [datapathStep, hr, h, hhalt, hill, writeSelected_oneHot, beginStep, State.setReg]

/-- At class HALT the datapath begins the step and stops. -/
theorem datapathStep_of_halt (h : opClass (opField (fetchWord s)) = .halt) : datapathStep s = stop (beginStep s) := by
  simp [datapathStep, hr, h, writeEnable, writeSelected_zero, beginStep, stop]

/-- At class ILLEGAL the datapath begins the step and latches the fault. -/
theorem datapathStep_of_illegal (h : opClass (opField (fetchWord s)) = .illegal) :
    datapathStep s = takeIllegalOpcode (opField (fetchWord s)) s.pc (beginStep s) := by
  simp [datapathStep, hr, h, writeEnable, writeSelected_zero, beginStep, stop, takeIllegalOpcode]

end

/-- Settles O19: class by class, the datapath ends in the state the step does. -/
theorem datapathPerformsTheStep : Obligations.DatapathPerformsTheStep := by
  intro s
  cases hr : s.running with
  | false => rw [step_of_not_running hr, datapathStep_of_not_running hr]
  | true =>
    cases hc : opClass (opField (fetchWord s)) with
    | halt =>
      rw [datapathStep_of_halt hr hc]
      exact (step_of_decode_ok hr ((decode_ok_halt_iff _).mpr hc)).trans (execHalt_spec _)
    | illegal =>
      rw [datapathStep_of_illegal hr hc, opField_eq_ofNat]
      exact step_of_illegalWord hr ((illegalWord_iff _).mpr hc)
    | add | sub | and | or | not =>
      have henable : writeEnable (opClass (opField (fetchWord s))) = true := by
        rw [hc]
        rfl
      obtain ⟨i, hd, hexec⟩ := exec_of_writeEnable henable
      rw [datapathStep_of_writeEnable hr henable]
      exact (step_of_decode_ok hr hd).trans (hexec _)

/-! ## A result as the next operand -/

/-- The register file after a step at an ALU word, as a function of the one before (41_alu.md R101). -/
theorem reg_after_aluWord {s t : State} (hr : s.running = true) (hw : AluWord (s.wordAt s.pc)) (h : step s = .next t) :
    t.reg = regsAfter (s.wordAt s.pc) s.reg := by
  obtain rfl := Host.Outcome.next.inj ((step_eq_of_aluWord hr hw).symm.trans h)
  funext r
  exact State.reg_setReg _ _ _ _

/-- A step at an ALU word leaves the core running. -/
theorem running_after_aluWord {s t : State} (hr : s.running = true) (hw : AluWord (s.wordAt s.pc))
    (h : step s = .next t) : t.running = true := by
  obtain rfl := Host.Outcome.next.inj ((step_eq_of_aluWord hr hw).symm.trans h)
  exact hr

/-- A step changes no word of memory (20_memory.md R33). -/
theorem step_wordAt {s t : State} (h : step s = .next t) : t.wordAt = s.wordAt := by
  funext a
  rw [State.wordAt, step_imem h, State.wordAt]

/-- Settles O23: two steps, each at its ALU word, the second on the registers the first left. -/
theorem resultIsReadyForTheNextStep : Obligations.ResultIsReadyForTheNextStep := by
  intro s hl hfirst hsecond
  obtain ⟨u, hu⟩ := step_total s
  obtain ⟨t, ht⟩ := step_total u
  have hword : u.wordAt u.pc = s.wordAt (s.pc + 1#16) := by rw [step_wordAt hu, step_pc hl.running hu]
  have hregs := reg_after_aluWord (running_after_aluWord hl.running hfirst hu) (hword ▸ hsecond) ht
  rw [hword, reg_after_aluWord hl.running hfirst hu] at hregs
  refine ⟨t, ?steps, fun r => congrFun hregs r⟩
  case steps =>
    rw [stepN_succ hu, stepN_succ ht]
    rfl

/-! ## Negation -/

/-- Of two writes to one register the second stands. -/
@[simp] theorem State.setReg_setReg (s : State) (i : RegIdx) (v w : Word) : (s.setReg i v).setReg i w = s.setReg i w := by
  simp [State.setReg]

/-- Settles O16: both ways write the two's complement `~~~x + 1 = 0 - x` to the one register. -/
theorem negationTwoWays : Obligations.NegationTwoWays := by
  intro s d r one zero hone hzero hne
  refine ⟨_, _, execNot_spec d r s, execAdd_spec d d one _, ?_⟩
  rw [execSub_spec, State.setReg_setReg, State.reg_setReg_same, State.reg_setReg_other _ _ hne, hone, hzero,
    BitVec.zero_sub, BitVec.neg_eq_not_add]

/-! ## The report of a fault -/

/-- Settles O26: a latched fault means an illegal word, whose step's report points just before the pc, in an unchanged
memory. -/
theorem faultingWordCanBeReadBack : Obligations.FaultingWordCanBeReadBack := by
  intro s t hl hf hstep ht
  have hw := (step_fault_iff_illegalWord hl hf hstep).mp ht
  obtain ⟨-, hop, haddr⟩ := status_after_illegalWord hl hstep hw
  have hword : t.wordAt t.faultAddr = s.wordAt s.pc := by rw [step_wordAt hstep, haddr]
  refine ⟨?address, hword, ?opcode⟩
  case address => rw [haddr, step_pc hl.running hstep, BitVec.add_sub_cancel]
  case opcode => rw [hword, hop, ← opField_eq_ofNat, opField_toNat]

end Sys2Proof.Machine
end

section
/-! Proofs about runs (40_sequencer.md section 2, 70_reset_and_hazards.md sections 4 and 6). First the laws of `EndsIn` and
RUN; then a run along ALU words, and where it stops: from these, how a run ends, its bound, and the run that never ends. Last,
that the opcodes alone decide the control. -/
namespace Sys2Proof.Machine
open Sys2Proof.Claims

/-! ## The laws of `EndsIn` and RUN -/

/-- `k + 1` steps are `k` steps and then one. -/
theorem stepN_succ_last {s t u : State} {k : Nat} (hk : stepN k s = .next t) (h : step t = .next u) :
    stepN (k + 1) s = .next u := by
  rw [stepN_add hk, stepN_succ h]
  rfl

/-- A run has one end: past its end it would be halted too early. -/
theorem EndsIn.unique {s t u : State} {k l : Nat} (hk : EndsIn s k t) (hl : EndsIn s l u) : k = l ∧ t = u := by
  obtain ⟨hkt, htp, hkbefore⟩ := hk
  obtain ⟨hlu, hup, hlbefore⟩ := hl
  rcases lt_trichotomy k l with hlt | rfl | hlt
  · obtain ⟨v, hv, hvp⟩ := hlbefore k hlt
    obtain rfl := Host.Outcome.next.inj (hkt.symm.trans hv)
    exact absurd htp hvp
  · exact ⟨rfl, Host.Outcome.next.inj (hkt.symm.trans hlu)⟩
  · obtain ⟨v, hv, hvp⟩ := hkbefore l hlt
    obtain rfl := Host.Outcome.next.inj (hlu.symm.trans hv)
    exact absurd hup hvp

/-- A run that never ends does not end. -/
theorem NeverEnds.not_endsIn {s t : State} {k : Nat} (h : NeverEnds s) : ¬ EndsIn s k t := by
  rintro ⟨hkt, htp, -⟩
  obtain ⟨u, hu, hup⟩ := h k
  obtain rfl := Host.Outcome.next.inj (hkt.symm.trans hu)
  exact hup htp

/-- RUN with fuel left steps on outside phase Halted (40_sequencer.md R96). -/
theorem runFuel_succ {s t : State} (hp : s.phase ≠ .halted) (h : step s = .next t) (fuel : Nat) :
    runFuel (fuel + 1) s = runFuel fuel t := by
  rw [runFuel, if_neg hp]
  simp only [h]

/-- RUN without fuel has not ended outside phase Halted (92_eei_decisions.md D19). -/
theorem runFuel_zero {s : State} (hp : s.phase ≠ .halted) : runFuel 0 s = .next (.outOfFuel s) := by
  rw [runFuel, if_neg hp]

/-- RUN from `s` is RUN from any later state of the run, with the fuel that is left. -/
theorem runFuel_add {s t : State} {k : Nat} (h : stepN k s = .next t)
    (hbefore : ∀ j < k, ∃ u, stepN j s = .next u ∧ u.phase ≠ .halted) (fuel : Nat) :
    runFuel (k + fuel) s = runFuel fuel t := by
  induction k generalizing s with
  | zero =>
    obtain rfl := Host.Outcome.next.inj h
    rw [Nat.zero_add]
  | succ k ih =>
    obtain ⟨v, hv, hp⟩ := hbefore 0 (by omega)
    obtain rfl := Host.Outcome.next.inj hv
    obtain ⟨u, hu⟩ := step_total s
    rw [stepN_succ hu] at h
    rw [Nat.add_right_comm, runFuel_succ hp hu, ih h]
    intro j hj
    obtain ⟨w, hw, hwp⟩ := hbefore (j + 1) (by omega)
    exact ⟨w, (stepN_succ hu j).symm.trans hw, hwp⟩

/-- RUN with enough fuel returns the end of the run (40_sequencer.md R98). -/
theorem EndsIn.runFuel_eq {s t : State} {k fuel : Nat} (h : EndsIn s k t) (hfuel : k ≤ fuel) :
    runFuel fuel s = .next (.ended t.outcome t) := by
  obtain ⟨hkt, htp, hbefore⟩ := h
  obtain ⟨rest, rfl⟩ := Nat.exists_eq_add_of_le hfuel
  rw [runFuel_add hkt hbefore, runFuel_of_halted htp, State.outcome_of_halted htp]

/-- RUN has not ended under any fuel when the run never ends (92_eei_decisions.md D19). -/
theorem NeverEnds.runFuel_eq {s : State} (h : NeverEnds s) (fuel : Nat) :
    ∃ t, runFuel fuel s = .next (.outOfFuel t) := by
  obtain ⟨t, ht, hp⟩ := h fuel
  exact ⟨t, (runFuel_add ht (fun j _ => h j) 0).trans (runFuel_zero hp)⟩

/-! ## A run along ALU words -/

/-- The first `n` words from the pc on, cyclically, are ALU words. -/
def AluWordsAhead (s : State) (n : Nat) : Prop := ∀ j < n, AluWord (s.wordAt (s.pc + BitVec.ofNat 16 j))

/-- `n` steps lead from `s` to a live state `u`, `n` words further on, with the memory and the fault latch unchanged. -/
structure RunsAlong (s : State) (n : Nat) (u : State) : Prop where
  steps : stepN n s = .next u
  live : u.Live
  pc : u.pc = s.pc + BitVec.ofNat 16 n
  memory : u.imem = s.imem
  fault : u.fault = s.fault

/-- A live core stays live through a step at an ALU word, with the fault latch unchanged. -/
theorem live_after_aluWord {s t : State} (hl : s.Live) (hw : AluWord (s.wordAt s.pc)) (h : step s = .next t) :
    t.Live ∧ t.fault = s.fault := by
  obtain rfl := Host.Outcome.next.inj ((step_eq_of_aluWord hl.running hw).symm.trans h)
  refine ⟨⟨hl.running, ?_⟩, rfl⟩
  rw [State.setReg_phase, beginStep_phase_of_not_halted hl.phase]
  decide

/-- The word a run meets is the one that stood that far ahead of its start. -/
theorem RunsAlong.wordAt_pc {s u : State} {n : Nat} (h : RunsAlong s n u) :
    u.wordAt u.pc = s.wordAt (s.pc + BitVec.ofNat 16 n) := by
  rw [State.wordAt, h.memory, h.pc, State.wordAt]

/-- Along ALU words a live core runs on. -/
theorem runsAlong_of_aluWordsAhead {s : State} (hl : s.Live) {n : Nat} (h : AluWordsAhead s n) :
    ∃ u, RunsAlong s n u := by
  induction n with
  | zero => exact ⟨s, rfl, hl, (BitVec.add_zero s.pc).symm, rfl, rfl⟩
  | succ n ih =>
    obtain ⟨u, hu⟩ := ih fun j hj => h j (Nat.lt_succ_of_lt hj)
    have hw : AluWord (u.wordAt u.pc) := hu.wordAt_pc ▸ h n (Nat.lt_succ_self n)
    obtain ⟨t, ht⟩ := step_total u
    obtain ⟨htl, htf⟩ := live_after_aluWord hu.live hw ht
    refine ⟨t, stepN_succ_last hu.steps ht, htl, ?_, (step_imem ht).trans hu.memory, htf.trans hu.fault⟩
    rw [step_pc hu.live.running ht, hu.pc, BitVec.ofNat_add, BitVec.add_assoc]

/-! ## Where a run stops -/

/-- The first stopping word is `n` words ahead. -/
structure StopsAfter (s : State) (n : Nat) : Prop where
  alu_before : AluWordsAhead s n
  stop_at : ¬ AluWord (s.wordAt (s.pc + BitVec.ofNat 16 n))

/-- The words ahead are ALU words without end, or a stopping word comes first at some distance. -/
theorem aluWordsAhead_or_stopsAfter (s : State) : (∀ n, AluWordsAhead s n) ∨ ∃ n, StopsAfter s n := by
  classical
  by_cases h : ∃ n : Nat, ¬ AluWord (s.wordAt (s.pc + BitVec.ofNat 16 n))
  · exact .inr ⟨Nat.find h, fun j hj => not_not.mp (Nat.find_min h hj), Nat.find_spec h⟩
  · exact .inl fun _ j _ => not_not.mp fun hj => h ⟨j, hj⟩

/-- A step of a live core at a stopping word halts it and writes no register. -/
theorem halted_after_stoppingWord {s t : State} (hl : s.Live) (hw : ¬ AluWord (s.wordAt s.pc)) (h : step s = .next t) :
    t.phase = .halted ∧ t.x = s.x := by
  rcases step_of_not_aluWord hl.running hw with hs | hs <;>
  · obtain rfl := Host.Outcome.next.inj (hs.symm.trans h)
    exact ⟨rfl, rfl⟩

/-- A live core stops at the first stopping word, by the step that meets it (40_sequencer.md R97). -/
theorem endsIn_of_stopsAfter {s : State} (hl : s.Live) {n : Nat} (h : StopsAfter s n) :
    ∃ u t, RunsAlong s n u ∧ step u = .next t ∧ EndsIn s (n + 1) t ∧ t.x = u.x := by
  obtain ⟨u, hu⟩ := runsAlong_of_aluWordsAhead hl h.alu_before
  obtain ⟨t, ht⟩ := step_total u
  obtain ⟨hp, hx⟩ := halted_after_stoppingWord hu.live (hu.wordAt_pc ▸ h.stop_at) ht
  refine ⟨u, t, hu, ht, ⟨stepN_succ_last hu.steps ht, hp, fun j hj => ?_⟩, hx⟩
  obtain ⟨v, hv⟩ := runsAlong_of_aluWordsAhead hl (n := j) fun i hi => h.alu_before i (by omega)
  exact ⟨v, hv.steps, hv.live.phase⟩

/-- The status after a step at a stopping word tells its kind: FAULTED after an illegal word, HALTED after a HALT. -/
theorem status_after_stoppingWord {s t : State} (hl : s.Live) (hf : s.fault = false) (hw : ¬ AluWord (s.wordAt s.pc))
    (h : step s = .next t) :
    (t.status = .faulted ↔ IllegalWord (s.wordAt s.pc)) ∧ (t.status = .halted ↔ opOf (s.wordAt s.pc) = 15) := by
  rcases aluWord_or_haltWord_or_illegalWord (s.wordAt s.pc) with halu | hhalt | hill
  · exact absurd halu hw
  · have hlegal : ¬ IllegalWord (s.wordAt s.pc) := by omega
    simp [(status_after_haltWord hl h hhalt hf).1, hhalt]
  · have hnot : opOf (s.wordAt s.pc) ≠ 15 := by omega
    simp [(status_after_illegalWord hl h hill).1, hill, hnot]

/-- A live core without a latched fault ends a run at the first stopping word in the status of that word's kind. -/
theorem endsIn_status_of_stopsAfter {s : State} (hl : s.Live) (hf : s.fault = false) {n : Nat} (h : StopsAfter s n) :
    ∃ u t, RunsAlong s n u ∧ step u = .next t ∧ EndsIn s (n + 1) t ∧ t.x = u.x ∧
      (t.status = .faulted ↔ IllegalWord (s.wordAt (s.pc + BitVec.ofNat 16 n))) ∧
      (t.status = .halted ↔ opOf (s.wordAt (s.pc + BitVec.ofNat 16 n)) = 15) := by
  obtain ⟨u, t, hu, ht, hend, hx⟩ := endsIn_of_stopsAfter hl h
  have hstatus := status_after_stoppingWord hu.live (hu.fault.trans hf) (hu.wordAt_pc ▸ h.stop_at) ht
  rw [hu.wordAt_pc] at hstatus
  exact ⟨u, t, hu, ht, hend, hx, hstatus⟩

/-- Settles O27: the run along the ALU words, then the step at the stopping word. -/
theorem runStopsAtFirstStoppingWord : Obligations.RunStopsAtFirstStoppingWord := by
  intro s n hl hf halu hstop
  obtain ⟨u, t, hu, ht, hend, hx, hfaulted, hhalted⟩ := endsIn_status_of_stopsAfter hl hf ⟨halu, hstop⟩
  refine ⟨t, u, hend, hu.steps, hx, (step_imem ht).trans hu.memory, ?pc, hfaulted, hhalted,
    fun fuel hfuel => hend.runFuel_eq hfuel⟩
  case pc => rw [step_pc hu.live.running ht, hu.pc]

/-! ## How a run ends -/

/-- Over ALU words without end a live core's run never ends. -/
theorem neverEnds_of_aluWordsAhead {s : State} (hl : s.Live) (h : ∀ n, AluWordsAhead s n) : NeverEnds s := by
  intro k
  obtain ⟨u, hu⟩ := runsAlong_of_aluWordsAhead hl (h k)
  exact ⟨u, hu.steps, hu.live.phase⟩

/-- A live core's run that ends has met a first stopping word, in its last step. -/
theorem stopsAfter_of_endsIn {s t : State} {k : Nat} (hl : s.Live) (h : EndsIn s k t) :
    ∃ n, k = n + 1 ∧ StopsAfter s n := by
  rcases aluWordsAhead_or_stopsAfter s with halu | ⟨n, hn⟩
  · exact absurd h (neverEnds_of_aluWordsAhead hl halu).not_endsIn
  · obtain ⟨-, t', -, -, hend, -⟩ := endsIn_of_stopsAfter hl hn
    exact ⟨n, (h.unique hend).1, hn⟩

/-- A run ends in a state with property `p` exactly when it reaches, through ALU words alone, a stopping word with property
`q`, if at every stopping word the end has `p` just when the word has `q`. -/
theorem endsIn_iff_of_stoppingWord {s : State} (hl : s.Live) {p : State → Prop} {q : Word → Prop}
    (hq : ∀ w, q w → ¬ AluWord w)
    (hpq : ∀ n, StopsAfter s n → ∃ t, EndsIn s (n + 1) t ∧ (p t ↔ q (s.wordAt (s.pc + BitVec.ofNat 16 n)))) :
    (∃ k t, EndsIn s k t ∧ p t) ↔ ∃ n, AluWordsAhead s n ∧ q (s.wordAt (s.pc + BitVec.ofNat 16 n)) := by
  constructor
  · rintro ⟨k, t, hend, hp⟩
    obtain ⟨n, rfl, hn⟩ := stopsAfter_of_endsIn hl hend
    obtain ⟨t', hend', hiff⟩ := hpq n hn
    obtain ⟨-, rfl⟩ := hend.unique hend'
    exact ⟨n, hn.alu_before, hiff.mp hp⟩
  · rintro ⟨n, halu, hw⟩
    obtain ⟨t, hend, hiff⟩ := hpq n ⟨halu, hq _ hw⟩
    exact ⟨n + 1, t, hend, hiff.mpr hw⟩

/-- Settles O28: a run ends at its first stopping word, in the status of that word's kind. -/
theorem runEndsNormallyExactlyAtAHalt : Obligations.RunEndsNormallyExactlyAtAHalt := by
  refine fun s hl hf => ⟨?normal, ?faulted⟩
  case normal =>
    refine endsIn_iff_of_stoppingWord hl (q := fun w => opOf w = 15) (fun w hw halu => by omega) fun n hn => ?_
    obtain ⟨-, t, -, -, hend, -, -, hhalted⟩ := endsIn_status_of_stopsAfter hl hf hn
    exact ⟨t, hend, hhalted⟩
  case faulted =>
    refine endsIn_iff_of_stoppingWord hl (q := IllegalWord) (fun w hw halu => by omega) fun n hn => ?_
    obtain ⟨-, t, -, -, hend, -, hfaulted, -⟩ := endsIn_status_of_stopsAfter hl hf hn
    exact ⟨t, hend, not_not.trans hfaulted⟩

/-- Settles O29: the first stopping word is no further ahead than the one given, which is fewer than 65536 words ahead. -/
theorem runIsBounded : Obligations.RunIsBounded := by
  rintro s hl ⟨a, ha⟩
  have hdistance : s.pc + BitVec.ofNat 16 (a - s.pc).toNat = a := by
    rw [BitVec.ofNat_toNat, BitVec.setWidth_eq, BitVec.add_comm, BitVec.sub_add_cancel]
  rcases aluWordsAhead_or_stopsAfter s with halu | ⟨n, hn⟩
  · exact absurd (halu _ _ (Nat.lt_succ_self (a - s.pc).toNat)) (hdistance.symm ▸ ha)
  · have hle : n ≤ (a - s.pc).toNat := by
      by_contra hlt
      exact ha (hdistance ▸ hn.alu_before _ (by omega))
    have hlt := (a - s.pc).isLt
    obtain ⟨-, t, -, -, hend, -⟩ := endsIn_of_stopsAfter hl hn
    exact ⟨n + 1, t, by omega, hend⟩

/-- Settles O30: every word ahead is an ALU word, at any distance. -/
theorem runWithoutStoppingWordNeverEnds : Obligations.RunWithoutStoppingWordNeverEnds := by
  intro s hl halu
  have hnever := neverEnds_of_aluWordsAhead hl fun _ _ _ => halu _
  exact ⟨hnever, hnever.runFuel_eq⟩

/-! ## Control -/

/-- `s` with other registers and another memory: what it shares with `s` is its control. -/
def State.withData (s : State) (y : Vector Word 8) (m : Memory) : State := { s with x := y, imem := m }

/-- A step from a state with other data but the same opcode at the pc gives a next state that differs in the data only. -/
theorem step_withData {s t : State} (y : Vector Word 8) {m : Memory}
    (hop : opOf (m.read s.pc.toNat) = opOf (s.wordAt s.pc)) (h : step s = .next t) :
    ∃ z, step (s.withData y m) = .next (t.withData z m) := by
  have hop' : opOf ((s.withData y m).wordAt (s.withData y m).pc) = opOf (s.wordAt s.pc) := hop
  cases hr : s.running with
  | false =>
    obtain rfl := Host.Outcome.next.inj ((step_of_not_running hr).symm.trans h)
    exact ⟨y, step_of_not_running hr⟩
  | true =>
    rcases aluWord_or_haltWord_or_illegalWord (s.wordAt s.pc) with hw | hw | hw
    · obtain rfl := Host.Outcome.next.inj ((step_eq_of_aluWord hr hw).symm.trans h)
      exact ⟨_, step_eq_of_aluWord (s := s.withData y m) hr (by rwa [AluWord, hop'])⟩
    · obtain rfl := Host.Outcome.next.inj ((step_of_haltWord hr hw).symm.trans h)
      exact ⟨y, step_of_haltWord (s := s.withData y m) hr (hop'.trans hw)⟩
    · obtain rfl := Host.Outcome.next.inj ((step_of_illegalWord hr hw).symm.trans h)
      have hstep := step_of_illegalWord (s := s.withData y m) hr (by rwa [IllegalWord, hop'])
      rw [hop'] at hstep
      exact ⟨y, hstep⟩

/-- `k` steps from a state with other data but the same opcodes give a state that differs in the data only. -/
theorem stepN_withData {k : Nat} {s t : State} (y : Vector Word 8) {m : Memory}
    (hop : ∀ a : Addr, opOf (m.read a.toNat) = opOf (s.wordAt a)) (h : stepN k s = .next t) :
    ∃ z, stepN k (s.withData y m) = .next (t.withData z m) := by
  induction k generalizing s y with
  | zero =>
    obtain rfl := Host.Outcome.next.inj h
    exact ⟨y, rfl⟩
  | succ k ih =>
    obtain ⟨u, hu⟩ := step_total s
    obtain ⟨z, hz⟩ := step_withData y (hop s.pc) hu
    rw [stepN_succ hu] at h
    rw [stepN_succ hz]
    exact ih z (by rwa [step_wordAt hu]) h

/-- Settles O31: the two runs keep step, state by state. -/
theorem controlDoesNotDependOnRegisters : Obligations.ControlDoesNotDependOnRegisters := by
  intro k s y m hop
  obtain ⟨t, ht⟩ := stepN_total k s
  obtain ⟨z, hz⟩ := stepN_withData y hop ht
  exact ⟨t, z, ht, hz⟩

end Sys2Proof.Machine
end

section
/-! Proofs about the invariant and the host's requests (10_state.md sections 6 to 8, 70_reset_and_hazards.md sections 2 and
3). First that reset, each kind of step and each request keep the invariant; then a host's limits (R145) and the boot order
(R147, R148). -/
namespace Sys2Proof.Machine
open Sys2Proof.Claims

/-! ## The invariant through a step -/

/-- Settles O39: every clause is about a field's reset value. -/
theorem resetMeetsTheInvariant : Obligations.ResetMeetsTheInvariant where
  memory := State.reset_imem_wf
  running_iff := by decide
  ready_pc _ := rfl
  fault_halted h := absurd h (by decide)
  latches_clear _ := ⟨rfl, rfl⟩
  fault_report h := absurd h (by decide)
  halt_report h := absurd h (by decide)

/-- Under the invariant a core outside phase Halted has latched no fault. -/
theorem State.Inv.no_fault_of_not_halted {s : State} (hi : s.Inv) (hp : s.phase ≠ .halted) : s.fault = false :=
  Bool.eq_false_iff.mpr fun hf => hp (hi.fault_halted hf)

/-- Under the invariant a running core is live. -/
theorem State.Inv.live_of_running {s : State} (hi : s.Inv) (hr : s.running = true) : s.Live :=
  ⟨hr, hi.running_iff.mp hr⟩

/-- The invariant of a core in phase Running, from its fields. -/
theorem State.inv_of_phase_running {s : State} (hwf : s.imem.wf) (hr : s.running = true) (hp : s.phase = .running)
    (hf : s.fault = false) (hclear : s.faultOpcode = 0x0#4 ∧ s.faultAddr = 0x0000#16) : s.Inv where
  memory := hwf
  running_iff := by simp [hr, hp]
  ready_pc h := by simp [hp] at h
  fault_halted h := by simp [hf] at h
  latches_clear _ := hclear
  fault_report h := by simp [hf] at h
  halt_report h := by simp [hp] at h

/-- The pc that a step leaves, less 1, is the address it fetched from (40_sequencer.md R88). -/
theorem beginStep_pc_sub_one (s : State) : (beginStep s).pc - 1#16 = s.pc := by
  rw [beginStep_pc, BitVec.add_sub_cancel]

/-- A step that takes the exception keeps the invariant: its report is of the word just before the pc. -/
theorem inv_of_faulting_step {s : State} (hi : s.Inv) (hw : illegalOpcode (opField (fetchWord s)) = true) :
    (takeIllegalOpcode (opField (fetchWord s)) s.pc (beginStep s)).Inv :=
  ⟨hi.memory, by simp, by simp, fun _ => rfl, by simp, fun _ => ⟨hw, rfl, rfl⟩, by simp⟩

section
variable {s : State} (hi : s.Inv) (hr : s.running = true)
include hi hr

/-- A step that writes a register keeps the invariant. -/
theorem inv_of_writing_step (d : RegIdx) (v : Word) : ((beginStep s).setReg d v).Inv := by
  have hl := hi.live_of_running hr
  have hf := hi.no_fault_of_not_halted hl.phase
  exact State.inv_of_phase_running hi.memory hr (beginStep_phase_of_not_halted hl.phase) hf (hi.latches_clear hf)

/-- A step that stops at a HALT keeps the invariant: no fault is latched, and the HALT stands just before the pc. -/
theorem inv_of_halting_step (hw : opClass (opField (fetchWord s)) = .halt) : (stop (beginStep s)).Inv := by
  have hf := hi.no_fault_of_not_halted (hi.live_of_running hr).phase
  refine ⟨hi.memory, by simp, by simp, fun _ => rfl, fun _ => hi.latches_clear hf, ?noFault, fun _ _ => ?haltWord⟩
  case noFault => simp [hf]
  case haltWord =>
    rw [stop_pc, beginStep_pc_sub_one]
    exact hw

end

/-- Settles O40: by what the step does. -/
theorem stepKeepsTheInvariant : Obligations.StepKeepsTheInvariant := by
  intro s t hi hstep
  rcases step_cases s with ⟨-, hs⟩ | ⟨hr, i, hd, hs⟩ | ⟨hr, -, hill, hs⟩
  · obtain rfl := Host.Outcome.next.inj (hs.symm.trans hstep)
    exact hi
  · rcases exec_cases i (beginStep s) with ⟨-, d, v, he⟩ | ⟨rfl, he⟩
    · obtain rfl := Host.Outcome.next.inj ((hs.trans he).symm.trans hstep)
      exact inv_of_writing_step hi hr d v
    · obtain rfl := Host.Outcome.next.inj ((hs.trans he).symm.trans hstep)
      exact inv_of_halting_step hi hr ((decode_ok_halt_iff _).mp hd)
  · obtain rfl := Host.Outcome.next.inj (hs.symm.trans hstep)
    exact inv_of_faulting_step hi hill

/-! ## The invariant through a request -/

/-- The invariant does not speak of the registers. -/
theorem State.Inv.setReg {s : State} (hi : s.Inv) (i : RegIdx) (v : Word) : (s.setReg i v).Inv :=
  ⟨hi.memory, hi.running_iff, hi.ready_pc, hi.fault_halted, hi.latches_clear, hi.fault_report, hi.halt_report⟩

/-- LOAD keeps the invariant: it is accepted only where no fault is latched, and leaves a canonical memory and pc 0. -/
theorem handle_load_inv {s : State} (hi : s.Inv) (words : List Word) : (handle (.load words) s).1.Inv := by
  by_cases hready : s.phase = .ready
  · rcases Nat.lt_or_ge Config.imemWords words.length with hlong | hlen
    · rwa [handle_load_tooLong hready hlong]
    · have hp : s.phase ≠ .halted := by simp [hready]
      have hf := hi.no_fault_of_not_halted hp
      rw [handle_load_accepted hready hlen]
      refine ⟨Memory.wf_loadFrom hi.memory 0 words (by rwa [Nat.zero_add]), hi.running_iff, fun _ => rfl, hi.fault_halted,
        hi.latches_clear, ?noFault, fun h => absurd h hp⟩
      case noFault => simp [hf]
  · rwa [handle_load_notReady words hready]

/-- Every request of a host keeps the invariant. -/
theorem handle_inv (q : Request) {s : State} (hi : s.Inv) : (handle q s).1.Inv := by
  cases q with
  | reset => exact resetMeetsTheInvariant
  | load words => exact handle_load_inv hi words
  | preset i v =>
    rcases handle_preset_cases i v s with h | h
    · rwa [h]
    · rw [h]
      exact hi.setReg i v
  | step =>
    obtain ⟨t, hstep⟩ := step_total s
    rw [handle_step hstep]
    exact stepKeepsTheInvariant s t hi hstep
  | readout => exact hi

/-- Every sequence of requests keeps the invariant. -/
theorem handleAll_inv (qs : List Request) {s : State} (hi : s.Inv) : (handleAll qs s).Inv := by
  induction qs generalizing s with
  | nil => exact hi
  | cons q qs ih => exact ih (handle_inv q hi)

/-- Settles O41: request by request, from the reset state on. -/
theorem everyReachableStateMeetsTheInvariant : Obligations.EveryReachableStateMeetsTheInvariant :=
  ⟨fun q _ hi => handle_inv q hi, fun qs => handleAll_inv qs resetMeetsTheInvariant⟩

/-! ## What a host cannot do -/

/-- Outside phase Ready LOAD, PRESET and READOUT change nothing (70_reset_and_hazards.md R145). -/
theorem handle_of_not_ready {s : State} {q : Request} (hreset : q ≠ .reset) (hstep : q ≠ .step)
    (hready : s.phase ≠ .ready) : (handle q s).1 = s := by
  cases q with
  | reset => exact absurd rfl hreset
  | step => exact absurd rfl hstep
  | load words => rw [handle_load_notReady words hready]
  | preset i v => rw [handle_preset_notReady i v hready]
  | readout => rfl

/-- No request but RESET, STEP and LOAD changes the pc or the memory (70_reset_and_hazards.md R145). -/
theorem handle_keeps_pc_imem {s : State} {q : Request} (hreset : q ≠ .reset) (hstep : q ≠ .step)
    (hload : ∀ words, q ≠ .load words) : (handle q s).1.pc = s.pc ∧ (handle q s).1.imem = s.imem := by
  cases q with
  | reset => exact absurd rfl hreset
  | step => exact absurd rfl hstep
  | load words => exact absurd rfl (hload words)
  | preset i v => rcases handle_preset_cases i v s with h | h <;> simp [h]
  | readout => exact ⟨rfl, rfl⟩

/-- No request but RESET and STEP changes a fault latch (70_reset_and_hazards.md R145). -/
theorem handle_keeps_latches {s : State} {q : Request} (hreset : q ≠ .reset) (hstep : q ≠ .step) :
    (handle q s).1.fault = s.fault ∧ (handle q s).1.faultOpcode = s.faultOpcode ∧
      (handle q s).1.faultAddr = s.faultAddr := by
  cases q with
  | reset => exact absurd rfl hreset
  | step => exact absurd rfl hstep
  | load words => rcases handle_load_cases words s with h | h <;> simp [h]
  | preset i v => rcases handle_preset_cases i v s with h | h <;> simp [h]
  | readout => exact ⟨rfl, rfl, rfl⟩

/-- Settles O36: limit by limit. -/
theorem hostKeepsToItsLimits : Obligations.HostKeepsToItsLimits := fun _ _ hreset hstep =>
  ⟨handle_of_not_ready hreset hstep, handle_keeps_pc_imem hreset hstep, handle_keeps_latches hreset hstep⟩

/-! ## The boot order -/

/-- The register writes of a list of presets, in order. -/
def State.presetAll (s : State) (presets : List (RegIdx × Word)) : State :=
  presets.foldl (fun t p => t.setReg p.1 p.2) s

/-- PRESETs in phase Ready are all accepted. -/
theorem handleAll_presets {s : State} (hready : s.phase = .ready) (presets : List (RegIdx × Word)) :
    handleAll (presets.map fun p => .preset p.1 p.2) s = s.presetAll presets := by
  induction presets generalizing s with
  | nil => rfl
  | cons p ps ih =>
    rw [List.map_cons, handleAll, handle_preset_ready p.1 p.2 hready]
    exact ih hready

/-- Presets write the registers alone. -/
theorem State.presetAll_eq (s : State) (presets : List (RegIdx × Word)) :
    s.presetAll presets = { s with x := (s.presetAll presets).x } := by
  induction presets generalizing s with
  | nil => rfl
  | cons p ps ih => exact ih (s.setReg p.1 p.2)

/-- A register that no preset names keeps its value. -/
theorem State.reg_presetAll_of_notMem {s : State} {presets : List (RegIdx × Word)} {r : RegIdx}
    (h : r ∉ presets.map Prod.fst) : (s.presetAll presets).reg r = s.reg r := by
  induction presets generalizing s with
  | nil => rfl
  | cons p ps ih =>
    rw [List.map_cons, List.mem_cons, not_or] at h
    exact (ih h.2).trans (s.reg_setReg_other p.2 h.1)

/-- A register that one preset names holds its value: no later preset names it again. -/
theorem State.reg_presetAll_of_mem {s : State} {presets : List (RegIdx × Word)} (hnodup : (presets.map Prod.fst).Nodup)
    {p : RegIdx × Word} (hp : p ∈ presets) : (s.presetAll presets).reg p.1 = p.2 := by
  induction presets generalizing s with
  | nil => cases hp
  | cons q qs ih =>
    obtain ⟨hq, hqs⟩ := List.nodup_cons.mp hnodup
    rcases List.mem_cons.mp hp with rfl | hp
    · exact (State.reg_presetAll_of_notMem hq).trans (s.reg_setReg_same p.1 p.2)
    · exact ih hqs hp

/-- The boot order with words that fit: they are loaded into the reset memory, then the presets are written. -/
theorem boot_eq (s : State) {words : List Word} (hlen : words.length ≤ Config.imemWords)
    (presets : List (RegIdx × Word)) :
    boot words presets s = State.presetAll { State.reset with imem := Memory.loadFrom [] 0 words } presets := by
  show handleAll (presets.map fun p => .preset p.1 p.2) (handle (.load words) State.reset).1 = _
  rw [handle_load_accepted rfl hlen]
  exact handleAll_presets rfl presets

/-- Settles O42: the reset state with the words loaded, of which the presets change the registers alone. -/
theorem bootPutsTheProgramInPlace : Obligations.BootPutsTheProgramInPlace := by
  intro s words presets hlen hnodup
  rw [boot_eq s hlen presets]
  refine ⟨?live, ?pc, fun i hi => ?word, fun a ha => ?above, fun p hp => State.reg_presetAll_of_mem hnodup hp,
    fun r hr => (State.reg_presetAll_of_notMem hr).trans (State.reg_reset r)⟩
  case live =>
    rw [State.presetAll_eq]
    exact ⟨rfl, by simp [State.reset]⟩
  case pc =>
    rw [State.presetAll_eq]
    rfl
  case word =>
    rw [State.presetAll_eq]
    exact Memory.read_loadFrom_zero_of_lt Memory.wf_nil hlen hi
  case above =>
    rw [State.presetAll_eq]
    exact Memory.read_loadFrom_zero_of_le Memory.wf_nil hlen ha

end Sys2Proof.Machine
end

section
/-! Proofs about the assembler's steps 5 to 8 (30_encoding.md R72 to R77): which token lists are instructions, which are
rejected before a register is read, and that the token limits of R71 change no verdict. -/
namespace Sys2Proof.Machine

/-! ## Registers -/

/-- A token with a register's lower-case letter raised: the one spelling that R75 allows beside the written form. -/
def raiseReg (t : Text) : Text :=
  match t with
  | ['r', d] => ['R', d]
  | t => t

theorem raiseReg_lower (d : Char) : raiseReg ['r', d] = ['R', d] := rfl

theorem raiseReg_of_not_lower {t : Text} (h : ∀ d, t ≠ ['r', d]) : raiseReg t = t := by
  unfold raiseReg
  split
  · exact absurd rfl (h _)
  · rfl

@[simp] theorem raiseReg_length (t : Text) : (raiseReg t).length = t.length := by
  by_cases h : ∃ d, t = ['r', d]
  · obtain ⟨d, rfl⟩ := h
    rfl
  · rw [raiseReg_of_not_lower (not_exists.mp h)]

/-- A token with an upper-case letter names a register exactly when it is the register's written form. -/
theorem parseReg_eq_some_iff_of_not_lower {t : Text} (h : ∀ d, t ≠ ['r', d]) (r : RegIdx) :
    parseReg t = some r ↔ t = regText r := by
  constructor
  · intro hr
    unfold parseReg at hr
    split at hr
    · next p d =>
      split_ifs at hr with hp
      rcases (by simpa using hp : p = 'r' ∨ p = 'R') with rfl | rfl
      · exact absurd rfl (h d)
      · rw [(parseDigit_eq_some_iff d r).mp hr, regText]
    · cases hr
  · rintro rfl
    exact parseReg_regText r

/-- The tokens that name a register (30_encoding.md R75). -/
theorem parseReg_eq_some_iff (t : Text) (r : RegIdx) : parseReg t = some r ↔ raiseReg t = regText r := by
  by_cases h : ∃ d, t = ['r', d]
  · obtain ⟨d, rfl⟩ := h
    simp [parseReg, raiseReg_lower, regText, parseDigit_eq_some_iff]
  · rw [raiseReg_of_not_lower (not_exists.mp h), parseReg_eq_some_iff_of_not_lower (not_exists.mp h)]

/-- The tokens that read as a register operand. -/
theorem regOperand_eq_ok_iff (t : Text) (r : RegIdx) : regOperand t = .ok r ↔ raiseReg t = regText r := by
  rw [← parseReg_eq_some_iff, regOperand]
  cases parseReg t <;> simp

/-- Three tokens read as operands exactly when each is a register (30_encoding.md R74, R75). -/
theorem threeRegs_eq_ok_iff (mk : RegIdx → RegIdx → RegIdx → Instr) (x y z : Text) (v : Option Instr) :
    threeRegs mk x y z = .ok v ↔
      ∃ d a b, v = some (mk d a b) ∧ [x, y, z].map raiseReg = [d, a, b].map regText := by
  simp only [List.map_cons, List.map_nil, List.cons.injEq, and_true, ← regOperand_eq_ok_iff, threeRegs]
  cases regOperand x <;> cases regOperand y <;> cases regOperand z <;> simp [eq_comm]

/-- Two tokens read as operands exactly when each is a register (30_encoding.md R74, R75). -/
theorem twoRegs_eq_ok_iff (mk : RegIdx → RegIdx → Instr) (x y : Text) (v : Option Instr) :
    twoRegs mk x y = .ok v ↔ ∃ d a, v = some (mk d a) ∧ [x, y].map raiseReg = [d, a].map regText := by
  simp only [List.map_cons, List.map_nil, List.cons.injEq, and_true, ← regOperand_eq_ok_iff, twoRegs]
  cases regOperand x <;> cases regOperand y <;> simp [eq_comm]

/-! ## Mnemonics and operand counts -/

/-- The tokens that are a mnemonic (30_encoding.md R73). -/
theorem parseMnemonic_eq_some_iff (t : Text) (m : Mnemonic) : parseMnemonic t = some m ↔ t = m.text := by
  constructor
  · intro h
    unfold parseMnemonic at h
    split_ifs at h <;> cases h <;> assumption
  · rintro rfl
    cases m <;> rfl

/-- No mnemonic is a register's name, so raising leaves the mnemonics apart from every other token. -/
theorem raiseReg_eq_mnemonic_iff (t : Text) (m : Mnemonic) : raiseReg t = m.text ↔ t = m.text := by
  by_cases h : ∃ d, t = ['r', d]
  · obtain ⟨d, rfl⟩ := h
    cases m <;> simp [raiseReg_lower, Mnemonic.text]
  · rw [raiseReg_of_not_lower (not_exists.mp h)]

/-- The number of operands of a mnemonic (30_encoding.md R74). -/
def arity : Mnemonic → Nat
  | .add | .sub | .and | .or => 3
  | .not => 2
  | .halt => 0

/-- A wrong operand count is rejected before any register is read (30_encoding.md R74). -/
theorem parseOperands_of_length_ne (name : Text) {m : Mnemonic} {ops : List Text} (h : ops.length ≠ arity m) :
    parseOperands name m ops = .error (.wrongOperandCount, name) := by
  unfold parseOperands
  split
  case h_7 => rfl
  all_goals exact absurd rfl h

/-! ## The tokens of an instruction -/

/-- The mnemonic of an instruction (30_encoding.md R77). -/
def mnemonicOf : Instr → Mnemonic
  | .add _ _ _ => .add
  | .sub _ _ _ => .sub
  | .and _ _ _ => .and
  | .or _ _ _ => .or
  | .not _ _ => .not
  | .halt => .halt

/-- The register operands of an instruction, in the order they are written (30_encoding.md R77). -/
def operandsOf : Instr → List RegIdx
  | .add d a b | .sub d a b | .and d a b | .or d a b => [d, a, b]
  | .not d a => [d, a]
  | .halt => []

/-- An instruction's tokens are its mnemonic and its registers. -/
theorem instrTokens_eq (i : Instr) : instrTokens i = (mnemonicOf i).text :: (operandsOf i).map regText := by
  cases i <;> rfl

/-- The operand tokens that are accepted are an instruction's registers, up to the letter's case. -/
theorem parseOperands_eq_ok {name : Text} {m : Mnemonic} {ops : List Text} {v : Option Instr}
    (h : parseOperands name m ops = .ok v) :
    ∃ i, v = some i ∧ m = mnemonicOf i ∧ ops.map raiseReg = (operandsOf i).map regText := by
  unfold parseOperands at h
  split at h
  case h_5 x y =>
    obtain ⟨d, a, rfl, hregs⟩ := (twoRegs_eq_ok_iff ..).mp h
    exact ⟨_, rfl, rfl, hregs⟩
  case h_6 =>
    obtain rfl := Except.ok.inj h
    exact ⟨.halt, rfl, rfl, rfl⟩
  case h_7 => cases h
  all_goals
    obtain ⟨d, a, b, rfl, hregs⟩ := (threeRegs_eq_ok_iff ..).mp h
    exact ⟨_, rfl, rfl, hregs⟩

/-- An instruction's registers, in either case of the letter, are accepted as its operands. -/
theorem parseOperands_of_operandsOf (name : Text) {i : Instr} {ops : List Text}
    (h : ops.map raiseReg = (operandsOf i).map regText) : parseOperands name (mnemonicOf i) ops = .ok (some i) := by
  have hlen : ops.length = (operandsOf i).length := by simpa using congrArg List.length h
  cases i with
  | add d a b | sub d a b | and d a b | or d a b =>
    obtain ⟨x, y, z, rfl⟩ := List.length_eq_three.mp hlen
    exact (threeRegs_eq_ok_iff ..).mpr ⟨d, a, b, rfl, h⟩
  | not d a =>
    obtain ⟨x, y, rfl⟩ := List.length_eq_two.mp hlen
    exact (twoRegs_eq_ok_iff ..).mpr ⟨d, a, rfl, h⟩
  | halt =>
    obtain rfl := List.length_eq_zero_iff.mp hlen
    rfl

/-- A known mnemonic leaves the verdict to its operands. -/
theorem parseTokens_mnemonic (m : Mnemonic) (ops : List Text) :
    parseTokens (m.text :: ops) = parseOperands m.text m ops := by
  rw [parseTokens, (parseMnemonic_eq_some_iff _ m).mpr rfl]

/-- A name that is no mnemonic's spelling is unknown (30_encoding.md R73). -/
theorem parseTokens_unknown {name : Text} (h : ∀ m : Mnemonic, name ≠ m.text) (ops : List Text) :
    parseTokens (name :: ops) = .error (.unknownMnemonic, name) := by
  have hnone : parseMnemonic name = none :=
    Option.eq_none_iff_forall_ne_some.mpr fun m hm => h m ((parseMnemonic_eq_some_iff name m).mp hm)
  rw [parseTokens, hnone]

/-- The token lists that are accepted: none is a skip (30_encoding.md R72), and an instruction's are that instruction. -/
theorem parseTokens_eq_ok {ts : List Text} {v : Option Instr} (h : parseTokens ts = .ok v) :
    (ts = [] ∧ v = none) ∨ ∃ i, v = some i ∧ ts.map raiseReg = instrTokens i := by
  cases ts with
  | nil => exact .inl ⟨rfl, (Except.ok.inj h).symm⟩
  | cons name ops =>
    right
    by_cases hname : ∃ m : Mnemonic, name = m.text
    · obtain ⟨m, rfl⟩ := hname
      rw [parseTokens_mnemonic] at h
      obtain ⟨i, hv, rfl, hops⟩ := parseOperands_eq_ok h
      refine ⟨i, hv, ?_⟩
      rw [instrTokens_eq, List.map_cons, (raiseReg_eq_mnemonic_iff ..).mpr rfl, hops]
    · rw [parseTokens_unknown (not_exists.mp hname)] at h
      cases h

/-- An instruction's tokens, in either case of a register's letter, are accepted as that instruction. -/
theorem parseTokens_of_instrTokens {ts : List Text} {i : Instr} (h : ts.map raiseReg = instrTokens i) :
    parseTokens ts = .ok (some i) := by
  rw [instrTokens_eq] at h
  obtain ⟨name, ops, rfl, hname, hops⟩ := List.map_eq_cons_iff.mp h
  obtain rfl := (raiseReg_eq_mnemonic_iff ..).mp hname
  rw [parseTokens_mnemonic, parseOperands_of_operandsOf _ hops]

/-- Settles O44: the two directions, of which the first excludes a skip. -/
theorem acceptedTokensAreExactly : Obligations.AcceptedTokensAreExactly := by
  intro ts i
  show parseTokens ts = .ok (some i) ↔ ts.map raiseReg = instrTokens i
  refine ⟨fun h => ?accepted, parseTokens_of_instrTokens⟩
  case accepted =>
    rcases parseTokens_eq_ok h with ⟨-, hskip⟩ | ⟨j, hj, htokens⟩
    · cases hskip
    · rwa [Option.some.inj hj]

/-! ## Rejected tokens -/

/-- A mnemonic with a wrong operand count is rejected by its count (30_encoding.md R74). -/
theorem parseTokens_of_length_ne {m : Mnemonic} {ops : List Text} (h : ops.length ≠ arity m) :
    parseTokens (m.text :: ops) = .error (.wrongOperandCount, m.text) := by
  rw [parseTokens_mnemonic, parseOperands_of_length_ne _ h]

/-- Settles O45: each listed name is the spelling of a mnemonic with the count the clause gives. -/
theorem unknownNamesAndCountsAreRejected : Obligations.UnknownNamesAndCountsAreRejected := by
  refine fun name ops => ⟨fun hname => parseTokens_unknown ?unknown ops, fun hname hlen => ?three, ?two, ?zero⟩
  case unknown =>
    rintro m rfl
    revert hname
    cases m <;> decide
  case three =>
    simp only [List.mem_cons, List.not_mem_nil, or_false] at hname
    rcases hname with rfl | rfl | rfl | rfl
    · exact parseTokens_of_length_ne (m := .add) hlen
    · exact parseTokens_of_length_ne (m := .sub) hlen
    · exact parseTokens_of_length_ne (m := .and) hlen
    · exact parseTokens_of_length_ne (m := .or) hlen
  case two =>
    rintro rfl hlen
    exact parseTokens_of_length_ne (m := .not) hlen
  case zero =>
    rintro rfl hlen
    exact parseTokens_of_length_ne (m := .halt) hlen

/-! ## The token limits -/

/-- Token lists strictly inside both limits of R71. -/
def InsideLimits (ts : List Text) : Prop :=
  ts.length < Config.maxTokens ∧ ∀ t ∈ ts, t.length < Config.maxTokenLen

/-- The limits cut nothing that is inside them. -/
theorem boundTokens_of_insideLimits {ts : List Text} (h : InsideLimits ts) : boundTokens ts = ts := by
  rw [boundTokens, List.take_of_length_le h.1.le]
  exact (List.map_congr_left fun t ht => List.take_of_length_le (h.2 t ht).le).trans (List.map_id ts)

/-- What the limits cut stays at a limit, so only a list inside them ends inside them. -/
theorem insideLimits_of_boundTokens {ts : List Text} (h : InsideLimits (boundTokens ts)) : InsideLimits ts := by
  obtain ⟨hlen, htok⟩ := h
  have hts : ts.length < Config.maxTokens := by
    simp only [boundTokens, List.length_map, List.length_take] at hlen
    omega
  refine ⟨hts, fun t ht => ?_⟩
  have hcut := htok (t.take Config.maxTokenLen) (by
    rw [boundTokens, List.take_of_length_le hts.le]
    exact List.mem_map_of_mem ht)
  rw [List.length_take] at hcut
  omega

/-- A register's written form has two characters. -/
@[simp] theorem regText_length (r : RegIdx) : (regText r).length = 2 := rfl

/-- An instruction has at most four tokens of at most four characters (30_encoding.md R76). -/
theorem instrTokens_insideLimits (i : Instr) : InsideLimits (instrTokens i) := by
  cases i <;> simp [InsideLimits, instrTokens, Mnemonic.text, Config.maxTokens, Config.maxTokenLen]

/-- Every token list that is accepted is inside the limits. -/
theorem insideLimits_of_accepted {ts : List Text} {v : Option Instr} (h : parseTokens ts = .ok v) : InsideLimits ts := by
  rcases parseTokens_eq_ok h with ⟨rfl, -⟩ | ⟨i, -, htokens⟩
  · simp [InsideLimits, Config.maxTokens]
  · obtain ⟨hlen, htok⟩ := htokens ▸ instrTokens_insideLimits i
    refine ⟨by simpa using hlen, fun t ht => ?_⟩
    simpa using htok (raiseReg t) (List.mem_map_of_mem ht)

/-- A token list outside the limits is not accepted. -/
theorem toOption_parseTokens_of_not_insideLimits {ts : List Text} (h : ¬ InsideLimits ts) :
    (parseTokens ts).toOption = none := by
  cases hv : parseTokens ts with
  | error e => rfl
  | ok v => exact absurd (insideLimits_of_accepted hv) h

/-- Settles O46: inside the limits nothing is cut, and outside them the list is rejected before and after. -/
theorem tokenBoundsChangeNoVerdict : Obligations.TokenBoundsChangeNoVerdict := by
  intro ts
  by_cases h : InsideLimits ts
  · rw [boundTokens_of_insideLimits h]
  · rw [toOption_parseTokens_of_not_insideLimits h,
      toOption_parseTokens_of_not_insideLimits fun hb => h (insideLimits_of_boundTokens hb)]

end Sys2Proof.Machine
end

section
/-! Proofs about the assembler's steps 1 to 4 and a whole source (30_encoding.md R67 to R71, R77 to R79, R85). First stripping
and trimming, and the tokens of a text, which trimming does not change; then an instruction's line, and the lines of a source:
the first error, and the words when there is none. -/
namespace Sys2Proof.Machine

/-! ## Stripping and trimming -/

/-- Trimming is the library's two one-sided trims. -/
theorem trim_eq (t : Text) : trim t = (t.dropWhile isWhitespace).rdropWhile isWhitespace := rfl

/-- A text without a comment is not stripped (30_encoding.md R69). -/
theorem stripComment_of_notMem {t : Text} (h : ';' ∉ t) : stripComment t = t :=
  List.takeWhile_eq_self_iff.mpr fun _ hc => decide_eq_true fun e => h (e ▸ hc)

/-- A stripped text holds no comment. -/
theorem semicolon_notMem_stripComment (t : Text) : ';' ∉ stripComment t := fun h => by
  simpa using List.mem_takeWhile_imp h

/-- What is trimmed is part of the text. -/
theorem trim_subset (t : Text) : trim t ⊆ t := fun _ hc =>
  (List.dropWhile_sublist _).subset ((List.rdropWhile_prefix isWhitespace (l := t.dropWhile isWhitespace)).subset hc)

/-- Text without whitespace is not trimmed (30_encoding.md R70). -/
theorem trim_of_no_whitespace {t : Text} (h : ∀ c ∈ t, isWhitespace c = false) : trim t = t := by
  rw [trim_eq, List.dropWhile_eq_self_iff.mpr fun hl => by simp [h t[0] (List.getElem_mem hl)],
    List.rdropWhile_eq_self_iff.mpr fun hl => by simp [h _ (List.getLast_mem hl)]]

/-- The trim on the right keeps a text's first character, so after it there is again nothing to trim on the left. -/
theorem dropWhile_trim (t : Text) : (trim t).dropWhile isWhitespace = trim t := by
  rw [List.dropWhile_eq_self_iff]
  intro hl
  have hfirst := (List.rdropWhile_prefix (l := t.dropWhile isWhitespace) isWhitespace).getElem (i := 0) hl
  have hdrop := List.dropWhile_eq_self_iff.mp (List.dropWhile_idempotent (p := isWhitespace) (l := t))
  rw [show (trim t)[0] = _ from hfirst]
  exact hdrop _

/-- Trimming twice is trimming once. -/
theorem trim_trim (t : Text) : trim (trim t) = trim t := by
  rw [trim_eq (trim t), dropWhile_trim, trim_eq, List.rdropWhile_idempotent]

/-- Settles O47: the trimmed text holds no comment, and trimming it again changes nothing. -/
theorem stripAndTrimIsIdempotent : Obligations.StripAndTrimIsIdempotent := by
  intro t
  have hclean : ';' ∉ trim (stripComment t) := fun h => semicolon_notMem_stripComment t (trim_subset _ h)
  rw [stripComment_of_notMem hclean, trim_trim]

/-! ## The tokens of a text -/

/-- Whitespace delimits (30_encoding.md R71). -/
theorem isDelim_of_isWhitespace {c : Char} (h : isWhitespace c = true) : isDelim c = true := by
  simp [isDelim, h]

/-- A text that is one token: not empty, and without a delimiter (30_encoding.md R71). -/
def IsToken (t : Text) : Prop := t ≠ [] ∧ ∀ c ∈ t, isDelim c = false

theorem splitTokens_nil : splitTokens [] = [] := rfl

/-- A token is split into itself. -/
theorem splitTokens_token {t : Text} (h : IsToken t) : splitTokens t = [t] := by
  rw [splitTokens, List.splitOnP_eq_singleton h.2]
  simp [h.1]

/-- A delimiter separates the tokens before it from those after it. -/
theorem splitTokens_append_delim (t u : Text) {d : Char} (hd : isDelim d = true) :
    splitTokens (t ++ d :: u) = splitTokens t ++ splitTokens u := by
  rw [splitTokens, List.splitOnP_append_cons t u hd, List.filter_append]
  rfl

/-- A delimiter in front makes no token. -/
theorem splitTokens_delim_cons (u : Text) {d : Char} (hd : isDelim d = true) : splitTokens (d :: u) = splitTokens u :=
  splitTokens_append_delim [] u hd

/-- Whitespace in front makes no token. -/
theorem splitTokens_dropWhile (t : Text) : splitTokens (t.dropWhile isWhitespace) = splitTokens t := by
  induction t with
  | nil => rfl
  | cons c t ih =>
    rw [List.dropWhile_cons]
    split
    · next h => rw [ih, splitTokens_delim_cons t (isDelim_of_isWhitespace h)]
    · rfl

/-- Whitespace at the end makes no token. -/
theorem splitTokens_rdropWhile (t : Text) : splitTokens (t.rdropWhile isWhitespace) = splitTokens t := by
  induction t using List.reverseRecOn with
  | nil => rfl
  | append_singleton t c ih =>
    rw [List.rdropWhile_concat]
    split
    · next h =>
      rw [ih, splitTokens_append_delim t [] (isDelim_of_isWhitespace h), splitTokens_nil, List.append_nil]
    · rfl

/-- Trimming changes no token. -/
theorem splitTokens_trim (t : Text) : splitTokens (trim t) = splitTokens t := by
  rw [trim_eq, splitTokens_rdropWhile, splitTokens_dropWhile]

/-- Operands joined by comma and space are split into themselves. -/
theorem splitTokens_joinOperands {ts : List Text} (h : ∀ t ∈ ts, IsToken t) : splitTokens (joinOperands ts) = ts := by
  induction ts with
  | nil => rfl
  | cons t ts ih =>
    obtain ⟨ht, hts⟩ := List.forall_mem_cons.mp h
    cases ts with
    | nil => exact splitTokens_token ht
    | cons u us =>
      have hjoin : joinOperands (t :: u :: us) = t ++ ',' :: ' ' :: joinOperands (u :: us) := by simp [joinOperands]
      rw [hjoin, splitTokens_append_delim _ _ (by decide), splitTokens_delim_cons _ (by decide), ih hts,
        splitTokens_token ht]
      rfl

/-- A name and operands, as R77 writes them, are split into themselves. -/
theorem splitTokens_statement {name : Text} {ops : List Text} (hname : IsToken name) (hops : ∀ t ∈ ops, IsToken t) :
    splitTokens (name ++ ' ' :: joinOperands ops) = name :: ops := by
  rw [splitTokens_append_delim _ _ (by decide), splitTokens_token hname, splitTokens_joinOperands hops]
  rfl

/-! ## An instruction's line -/

theorem isToken_mnemonic (m : Mnemonic) : IsToken m.text := by
  cases m <;> simp [IsToken, Mnemonic.text, isDelim, isWhitespace]

theorem isDelim_regDigit (r : RegIdx) : isDelim (regDigit r) = false := by
  revert r
  decide

theorem isToken_regText (r : RegIdx) : IsToken (regText r) := by
  have hletter : isDelim 'R' = false := by decide
  simp [IsToken, regText, isDelim_regDigit, hletter]

/-- An instruction's line is its mnemonic, then its registers after a space if it has any. -/
theorem instrText_eq (i : Instr) : instrText i = (mnemonicOf i).text ∨
    instrText i = (mnemonicOf i).text ++ ' ' :: joinOperands ((operandsOf i).map regText) := by
  cases i with
  | halt => exact .inl rfl
  | _ => exact .inr rfl

/-- An instruction's line is split into its tokens. -/
theorem splitTokens_instrText (i : Instr) : splitTokens (instrText i) = instrTokens i := by
  have hname := isToken_mnemonic (mnemonicOf i)
  cases i with
  | halt => exact splitTokens_token hname
  | _ => exact splitTokens_statement hname (by simp [isToken_regText])

theorem semicolon_ne_regDigit (r : RegIdx) : ';' ≠ regDigit r := by
  revert r
  decide

/-- An instruction's line holds no comment. -/
theorem semicolon_notMem_instrText (i : Instr) : ';' ∉ instrText i := by
  cases i <;> simp [instrText, instrTokens, joinOperands, Mnemonic.text, regText, semicolon_ne_regDigit]

/-- An instruction's line is within the line bound. -/
theorem instrText_length_le (i : Instr) : (instrText i).length ≤ Config.maxLine := by
  cases i <;> simp [instrText, instrTokens, joinOperands, Mnemonic.text, regText, Config.maxLine]

/-- An instruction's own tokens are spelled with the upper-case letter. -/
theorem map_raiseReg_instrTokens (i : Instr) : (instrTokens i).map raiseReg = instrTokens i := by
  have hreg (r : RegIdx) : raiseReg (regText r) = regText r := (parseReg_eq_some_iff _ r).mp (parseReg_regText r)
  have hname := (raiseReg_eq_mnemonic_iff (mnemonicOf i).text (mnemonicOf i)).mpr rfl
  simp [instrTokens_eq, hname, hreg]

/-- An instruction's line assembles to it (30_encoding.md R77). -/
theorem parseLine_instrText (i : Instr) : parseLine (instrText i) = .ok (some i) := by
  rw [parseLine, stripComment_of_notMem (semicolon_notMem_instrText i), tokenize, splitTokens_trim,
    splitTokens_instrText, boundTokens_of_insideLimits (instrTokens_insideLimits i),
    parseTokens_of_instrTokens (map_raiseReg_instrTokens i)]

/-- A line within the bound is one piece under every policy (30_encoding.md R68). -/
theorem boundLine_of_length_le (p : Config.LineOverflowPolicy) {line : Text} (h : line.length ≤ Config.maxLine) :
    boundLine p line = some [line] := if_pos h

/-- Settles O43: the line is one piece, and its tokens are the instruction's. -/
theorem assemblyFormAssembles : Obligations.AssemblyFormAssembles := by
  refine fun p n i => ⟨parseLine_instrText i, ?_⟩
  rw [assembleLine, boundLine_of_length_le p (instrText_length_le i)]
  simp [assemblePieces, parseLine_instrText]

/-! ## The lines of a source -/

/-- The pieces of a line assemble when each parses, to the pieces' words in order. -/
theorem assemblePieces_cons_eq_ok {n : Nat} {piece : Text} {rest : List Text} {ws : List Word}
    (h : assemblePieces n (piece :: rest) = .ok ws) :
    ∃ i vs, parseLine piece = .ok i ∧ assemblePieces n rest = .ok vs ∧ ws = (i.map encode).toList ++ vs := by
  rw [assemblePieces] at h
  cases hi : parseLine piece with
  | error e => simp [hi] at h
  | ok i =>
    cases hvs : assemblePieces n rest with
    | error e => simp [hi, hvs] at h
    | ok vs => exact ⟨i, vs, rfl, rfl, by simpa [hi, hvs] using h.symm⟩

/-- A line assembles when the policy gives its pieces and these assemble. -/
theorem assembleLine_eq_ok {p : Config.LineOverflowPolicy} {n : Nat} {line : Text} {ws : List Word}
    (h : assembleLine p n line = .ok ws) : ∃ ps, boundLine p line = some ps ∧ assemblePieces n ps = .ok ws := by
  rw [assembleLine] at h
  cases hps : boundLine p line with
  | none => simp [hps] at h
  | some ps => exact ⟨ps, rfl, by simpa [hps] using h⟩

/-- Lines assemble when the first does and the rest do, to their words in order. -/
theorem assembleFrom_cons_eq_ok {p : Config.LineOverflowPolicy} {n : Nat} {line : Text} {lines : List Text}
    {ws : List Word} (h : assembleFrom p n (line :: lines) = .ok ws) :
    ∃ us vs, assembleLine p n line = .ok us ∧ assembleFrom p (n + 1) lines = .ok vs ∧ ws = us ++ vs := by
  rw [assembleFrom] at h
  cases hus : assembleLine p n line with
  | error e => simp [hus] at h
  | ok us =>
    cases hvs : assembleFrom p (n + 1) lines with
    | error e => simp [hus, hvs] at h
    | ok vs => exact ⟨us, vs, rfl, rfl, by simpa [hus, hvs] using h.symm⟩

/-! ## The first error -/

/-- An error in a piece of a line carries the line's number (30_encoding.md R78). -/
theorem assemblePieces_error_line {n : Nat} {ps : List Text} {e : SyntaxError} (h : assemblePieces n ps = .error e) :
    e.line = n := by
  induction ps with
  | nil => cases h
  | cons piece rest ih =>
    rw [assemblePieces] at h
    cases hi : parseLine piece with
    | error c =>
      rw [hi] at h
      exact congrArg SyntaxError.line (Except.error.inj h).symm
    | ok i =>
      cases hvs : assemblePieces n rest with
      | error d =>
        rw [hi, hvs] at h
        exact ih (hvs.trans h)
      | ok vs => simp [hi, hvs] at h

/-- An error in a line carries its number (30_encoding.md R78). -/
theorem assembleLine_error_line {p : Config.LineOverflowPolicy} {n : Nat} {line : Text} {e : SyntaxError}
    (h : assembleLine p n line = .error e) : e.line = n := by
  rw [assembleLine] at h
  cases hps : boundLine p line with
  | none =>
    rw [hps] at h
    exact congrArg SyntaxError.line (Except.error.inj h).symm
  | some ps =>
    rw [hps] at h
    exact assemblePieces_error_line h

/-- A line that fails aborts the assembly from it on (30_encoding.md R78, R85). -/
theorem assembleFrom_cons_of_error {p : Config.LineOverflowPolicy} {n : Nat} {line : Text} {e : SyntaxError}
    (h : assembleLine p n line = .error e) (lines : List Text) : assembleFrom p n (line :: lines) = .error e := by
  rw [assembleFrom, h]

/-- After lines that assemble, an error in the lines that follow is the error of them all. -/
theorem assembleFrom_append_of_error {p : Config.LineOverflowPolicy} {n : Nat} {before rest : List Text}
    {ws : List Word} {e : SyntaxError} (hbefore : assembleFrom p n before = .ok ws)
    (hrest : assembleFrom p (n + before.length) rest = .error e) : assembleFrom p n (before ++ rest) = .error e := by
  induction before generalizing n ws with
  | nil => exact hrest
  | cons line lines ih =>
    obtain ⟨us, vs, hus, hvs, -⟩ := assembleFrom_cons_eq_ok hbefore
    have htail := ih hvs (by rwa [Nat.add_right_comm, Nat.add_assoc])
    rw [List.cons_append, assembleFrom, hus, htail]

/-! ## The words of a source -/

/-- Under `discardRest` a line is one piece: what is left of it within the bound (30_encoding.md R68). -/
theorem boundLine_discardRest (line : Text) : boundLine .discardRest line = some [line.take Config.maxLine] := by
  rw [boundLine]
  split
  · next h => rw [List.take_of_length_le h]
  · rfl

/-- Under `discardRest` a line that assembles gives the word of its instruction, or none for a skip. -/
theorem assembleLine_discardRest_eq_ok {n : Nat} {line : Text} {ws : List Word}
    (h : assembleLine .discardRest n line = .ok ws) :
    ws = ((parseLine (line.take Config.maxLine)).toOption.join.map encode).toList := by
  obtain ⟨ps, hps, hws⟩ := assembleLine_eq_ok h
  rw [boundLine_discardRest] at hps
  obtain rfl := Option.some.inj hps
  obtain ⟨i, vs, hi, hvs, rfl⟩ := assemblePieces_cons_eq_ok hws
  obtain rfl := Except.ok.inj hvs
  rw [hi, List.append_nil]
  rfl

/-- Under `discardRest` the words of lines that assemble are their instructions' words in order. -/
theorem assembleFrom_discardRest_eq_ok {n : Nat} {lines : List Text} {ws : List Word}
    (h : assembleFrom .discardRest n lines = .ok ws) :
    ws = (lines.filterMap fun l => (parseLine (l.take Config.maxLine)).toOption.join).map encode := by
  induction lines generalizing n ws with
  | nil => exact (Except.ok.inj h).symm
  | cons line lines ih =>
    obtain ⟨us, vs, hus, hvs, rfl⟩ := assembleFrom_cons_eq_ok h
    rw [assembleLine_discardRest_eq_ok hus, ih hvs, List.filterMap_cons]
    cases (parseLine (line.take Config.maxLine)).toOption.join <;> rfl

/-- Settles O48: the error is the line's, with its number; without one, the words line by line. -/
theorem assemblyIsFailFast : Obligations.AssemblyIsFailFast := by
  refine ⟨fun p before after line ws e hbefore hline => ⟨?aborts, assembleLine_error_line hline⟩,
    fun lines ws h => assembleFrom_discardRest_eq_ok h⟩
  case aborts =>
    rw [Nat.add_comm] at hline
    exact assembleFrom_append_of_error hbefore (assembleFrom_cons_of_error hline after)

/-- Every word of a line's pieces is an instruction's word. -/
theorem mem_assemblePieces {n : Nat} {ps : List Text} {ws : List Word} (h : assemblePieces n ps = .ok ws) {w : Word}
    (hw : w ∈ ws) : ∃ i, w = encode i := by
  induction ps generalizing ws with
  | nil =>
    obtain rfl := Except.ok.inj h
    cases hw
  | cons piece rest ih =>
    obtain ⟨i, vs, -, hvs, rfl⟩ := assemblePieces_cons_eq_ok h
    rcases List.mem_append.mp hw with hw | hw
    · obtain ⟨j, -, hj⟩ := Option.map_eq_some_iff.mp (Option.mem_toList.mp hw)
      exact ⟨j, hj.symm⟩
    · exact ih hvs hw

/-- Every word of a source's lines is an instruction's word. -/
theorem mem_assembleFrom {p : Config.LineOverflowPolicy} {n : Nat} {lines : List Text} {ws : List Word}
    (h : assembleFrom p n lines = .ok ws) {w : Word} (hw : w ∈ ws) : ∃ i, w = encode i := by
  induction lines generalizing n ws with
  | nil =>
    obtain rfl := Except.ok.inj h
    cases hw
  | cons line lines ih =>
    obtain ⟨us, vs, hus, hvs, rfl⟩ := assembleFrom_cons_eq_ok h
    rcases List.mem_append.mp hw with hw | hw
    · obtain ⟨ps, -, hps⟩ := assembleLine_eq_ok hus
      exact mem_assemblePieces hps hw
    · exact ih hvs hw

/-- Settles O49: every assembled word is an instruction's word. -/
theorem assembledWordsAreCanonical : Obligations.AssembledWordsAreCanonical := by
  intro p lines ws h w hw
  obtain ⟨i, rfl⟩ := mem_assembleFrom h hw
  exact ⟨encode_reservedBits i, i, decode_encode i, rfl⟩

end Sys2Proof.Machine
end

section
/-! Proofs about the hex text and the whole-system flow (30_encoding.md R80 and R82, 70_reset_and_hazards.md R146). First that
a word's four digits read as the word, then line by line the whole output; with that the flow runs the assembler's words. -/
namespace Sys2Proof.Machine

/-! ## A word's line -/

/-- No hex digit is whitespace. -/
theorem isWhitespace_hexDigit {n : Nat} (h : n < 16) : isWhitespace (hexDigit n) = false := by
  have hall : ∀ k : Fin 16, isWhitespace (hexDigit k) = false := by decide
  exact hall ⟨n, h⟩

/-- Every character of a word's line is a hex digit (30_encoding.md R80). -/
theorem exists_hexDigit_of_mem_hex4 {w : Word} {c : Char} (h : c ∈ hex4 w) : ∃ n, n < 16 ∧ c = hexDigit n := by
  have hw := w.isLt
  simp only [hex4, List.mem_cons, List.not_mem_nil, or_false] at h
  rcases h with h | h | h | h <;> exact ⟨_, by omega, h⟩

/-- A word's line holds no whitespace. -/
theorem isWhitespace_of_mem_hex4 {w : Word} : ∀ c ∈ hex4 w, isWhitespace c = false := by
  intro c hc
  obtain ⟨n, hn, rfl⟩ := exists_hexDigit_of_mem_hex4 hc
  exact isWhitespace_hexDigit hn

/-- A word's line holds no newline: that is whitespace. -/
theorem newline_notMem_hex4 (w : Word) : '\n' ∉ hex4 w := fun h =>
  absurd (isWhitespace_of_mem_hex4 _ h) (by decide)

/-- A written digit is read with its value. -/
theorem parseHexFrom_hexDigit (acc : Nat) {n : Nat} (h : n < 16) (cs : Text) :
    parseHexFrom acc (hexDigit n :: cs) = parseHexFrom (acc * 16 + n) cs := by
  have hvalue : hexValue (hexDigit n) = some n := hexValue_hexDigit ⟨n, h⟩
  rw [parseHexFrom, hvalue]

/-- A word's four digits read as its number. -/
theorem parseHexFrom_hex4 (w : Word) : parseHexFrom 0 (hex4 w) = some w.toNat := by
  have hw := w.isLt
  rw [hex4, parseHexFrom_hexDigit _ (by omega), parseHexFrom_hexDigit _ (by omega), parseHexFrom_hexDigit _ (by omega),
    parseHexFrom_hexDigit _ (by omega), parseHexFrom, Option.some_inj]
  omega

/-- A word's line reads as its number: there is nothing to trim. -/
theorem parseHexLine_hex4 (w : Word) : parseHexLine (hex4 w) = some w.toNat := by
  rw [parseHexLine, trim_of_no_whitespace isWhitespace_of_mem_hex4]
  exact parseHexFrom_hex4 w

/-- A word's line reads as the word, under every policy of the reader. -/
theorem readHexLine_hex4 (p : Config.HexParsePolicy) (wide : Config.WideValuePolicy) (w : Word) :
    readHexLine p wide (hex4 w) = some w := by
  simp [readHexLine, parseHexLine_hex4, w.isLt]

/-! ## The whole output -/

/-- The lines of the output are the words' lines (30_encoding.md R80). -/
theorem textLines_emit (ws : List Word) : textLines (emit ws) = ws.map hex4 := by
  induction ws with
  | nil => rfl
  | cons w ws ih =>
    have hemit : emit (w :: ws) = hex4 w ++ '\n' :: emit ws := by simp [emit]
    rw [hemit, textLines_append_newline (newline_notMem_hex4 w), ih, List.map_cons]

/-- Settles O50: line by line. -/
theorem hexTextRoundTrip : Obligations.HexTextRoundTrip := by
  intro p wide ws
  rw [textLines_emit, readHex]
  induction ws with
  | nil => rfl
  | cons w ws ih => simp [List.mapM_cons, readHexLine_hex4, ih]

/-! ## The flow -/

section
variable (p : Config.LineOverflowPolicy) (hex : Config.HexParsePolicy) (wide : Config.WideValuePolicy) {source : Text}

/-- The words that reach LOAD are those of the assembler, whatever the reader's policies. -/
theorem sourceWords_of_assemble {ws : List Word} (h : assemble p (textLines source) = .ok ws) :
    sourceWords p hex wide source = .ok ws := by
  simp only [sourceWords, h, hexTextRoundTrip hex wide ws]

/-- Where the assembly fails no word reaches LOAD. -/
theorem sourceWords_of_error {e : SyntaxError} (h : assemble p (textLines source) = .error e) :
    sourceWords p hex wide source = .error (.assembly e) := by
  simp only [sourceWords, h]

end

/-- Settles O51: the assembler's words reach LOAD, and LOAD's bound decides. -/
theorem flowLoadsTheAssembledWords : Obligations.FlowLoadsTheAssembledWords := by
  refine fun p hex wide source presets fuel => ⟨fun ws h => ?assembled, fun e h => ?failed⟩
  case assembled =>
    have hwords := sourceWords_of_assemble p hex wide h
    refine ⟨hwords, fun hlen => ?fits, fun hlen => ?tooLong⟩
    case fits => simp [runSource, hwords, Config.imemWords, Nat.not_lt.mpr hlen]
    case tooLong => simp [runSource, hwords, Config.imemWords, hlen]
  case failed =>
    have herror := sourceWords_of_error p hex wide h
    exact ⟨herror, by simp only [runSource, herror]⟩

end Sys2Proof.Machine
end
